-- ==== Sys2Proof/Word.lean ====
section
/-!
DEFINITION. The word types of the block: bytes and characters (00_scope.md R6), the 32-bit word of a group
(30_encoding.md R83), the 3-bit operation selector (R80) and a base-85 digit, which is an index of a table (R36, R85).
-/

namespace Sys2Proof

/-- One input byte or one output character: 8 bits (R6, `BYTE_W` and `CHAR_W`). -/
abbrev Byte := BitVec 8

/-- The word `v` of one group: 32 bits, unsigned (R6, `WORD_W`; R83). -/
abbrev Word32 := BitVec 32

/-- The operation selector `SEL`: 3 bits (R80). -/
abbrev Selector := BitVec 3

/-- A base-85 digit, 0 to 84: the number base and the size of each table are both 85 (R6 `RADIX`, R36, R138). -/
abbrev Digit := Fin 85

end Sys2Proof
end

