-- ==== Sys2Proof/Machine/Counts.lean ====
section
/-!
DEFINITION. The two functions of a length that every file of the spec uses: `N_out` and `CAP_req` (00_scope.md R12).
-/

namespace Sys2Proof.Machine

/-- `T(r)`: the characters of a tail of `r` bytes (R12). -/
def tailCount : Nat → Nat
  | 1 => 2
  | 2 => 3
  | 3 => 4
  | _ => 0

/-- `N_out(n)`: the characters that the block writes for `n` bytes (R12). -/
def nOut (n : Nat) : Nat :=
  n / 4 * 5 + tailCount (n % 4)

/-- `CAP_req(n) = ceil(n/4) * 5`: the capacity that the caller provides (R12, with `ceil` as R9 defines it). -/
def capReq (n : Nat) : Nat :=
  (n + 4 - 1) / 4 * 5

end Sys2Proof.Machine
end

