-- ==== Sys2Proof/Syntax.lean ====
section
/-!
DEFINITION. The five operations of spec/opcode_table.json, and the words in which a call is written down: the host's
launch and its other moves (30_encoding.md R81, R90; 10_state.md R40, R42).
-/

namespace Sys2Proof

/-- The operations (R81). None has an operand field: an operation's inputs are `IC`, `OC`, `LEN` and the bytes at `IC`. -/
inductive Instr where
  /-- `ENC.FULL`: encode one full group of 4 bytes into 5 characters (R171). -/
  | encFull
  /-- `ENC.TAIL1`: encode a tail of 1 byte into 2 characters (R182). -/
  | encTail1
  /-- `ENC.TAIL2`: encode a tail of 2 bytes into 3 characters (R183). -/
  | encTail2
  /-- `ENC.TAIL3`: encode a tail of 3 bytes into 4 characters (R184). -/
  | encTail3
  /-- `ENC.FINISH`: latch the count and end the call (R105). -/
  | encFinish
deriving DecidableEq, Repr

/-- What the host hands over at START: the length and the launch memory (R40, R101; 20_memory.md R50, R54, R62).
`input` holds the bytes of `IN` from index 0 on; `output` holds what is known of `OUT` before the call, from index 0 on
(it may be shorter than `cap`: the rest is not known). -/
structure Launch where
  len     : Nat
  inBase  : Nat
  outBase : Nat
  cap     : Nat
  input   : List Byte
  output  : List Byte
deriving DecidableEq, Repr

/-- The host's moves: the events of R40, and its own accesses to the two buffers (R42). -/
inductive HostMove where
  | reset
  | start (l : Launch)
  | result
  | readIn (i : Nat)
  | readOut (j : Nat)
  | writeIn (i : Nat) (b : Byte)
  | writeOut (j : Nat) (c : Byte)
deriving DecidableEq, Repr

/-- What a RESET can coincide with: a step of the encoder, or a START (60_exceptions.md R202). -/
inductive Rival where
  | encoderStep
  | start (l : Launch)
deriving DecidableEq, Repr

/-- Who moves: the encoder, or the host with the move it makes (R20: two agents act), or the host with a RESET that
coincides with another move (R202). DESIGN CHOICE (log 8). -/
inductive Turn where
  | encoder
  | host (m : HostMove)
  | resetWith (r : Rival)
deriving DecidableEq, Repr

/-- The operation lines of a written call of length `len` (R90: START, operations, RESULT). -/
structure Listing where
  len : Nat
  ops : List Instr
deriving DecidableEq, Repr

end Sys2Proof
end

