-- ==== Sys2Proof/Machine/State.lean ====
section
/-!
DEFINITION. The state of the block (10_state.md R21 to R27, R38, R39), with the launch parameters of the current call
(R7) and the model's own three fields, and the reasons a step can stop.
-/

namespace Sys2Proof.Machine

/-- A memory as data: (index, byte) pairs, indices strictly rising. An index that is not listed holds no value
(`Memory.unlisted` in Machine/Memory.lean, log 4). -/
abbrev Memory := List Host.Cell

/-- `PHASE` (R22). The code 3 is never reached and has no constructor (93 U10). -/
inductive Phase where
  | idle
  | run
  | done
deriving DecidableEq, Repr

/-- One memory access of the encoder, for the event history that 20_memory.md R72 describes (log 21). -/
inductive Access where
  /-- `MemRead(IN, i, 1)` that returned `b`. -/
  | read (i : Nat) (b : Byte)
  /-- `MemWrite(OUT, j, 1, c)`. -/
  | write (j : Nat) (c : Byte)
deriving DecidableEq, Repr

/-- Everything the spec gives the machine, and the model's own fields at the end. -/
structure State where
  /-- `PHASE` (R22). -/
  phase    : Phase
  /-- `LEN`, the input length in bytes (R23). -/
  len      : Nat
  /-- `IC`, the input cursor (R24). -/
  ic       : Nat
  /-- `OC`, the output cursor (R25). -/
  oc       : Nat
  /-- `CNT`, the result (R27). -/
  cnt      : Nat
  /-- `IN`, the input space (R38, R50). -/
  inMem    : Memory
  /-- `OUT`, the output space (R39, R54). -/
  outMem   : Memory
  /-- `CAP`, how many characters the output buffer can hold: a launch parameter (R7, R56). -/
  cap      : Nat
  /-- `IN_BASE`, an address of `AW` bits: a launch parameter (R7, R50; log 20). -/
  inBase   : Nat
  /-- `OUT_BASE`, an address of `AW` bits: a launch parameter (R7, R54; log 20). -/
  outBase  : Nat
  /-- The model's own: the turns to come, nearest first; when it is empty the encoder moves (log 8). -/
  agenda   : List Turn
  /-- The model's own: the memory accesses of the current call, oldest first (R72, log 21). -/
  accesses : List Access
  /-- The model's own: how many free bytes have been drawn so far (log 11). -/
  draws    : Nat
deriving DecidableEq, Repr

/-- Why the machine stops. The block itself signals nothing (60_exceptions.md R200): each is the model's. -/
inductive Fault where
  /-- Raised by `memWrite` at an index at or past `CAP` (R54, R203). Safe: on hardware the write lands outside the
  buffer, of which nothing is claimed. -/
  | outputOverflow
  /-- Raised by `memRead` at an index below `LEN` that holds no value. Safe: a launch hands over every byte (R223). -/
  | unwrittenInput
  /-- Raised by `readCount` outside DONE (R107, 93 U5). Safe: the register holds no meaningful value there. -/
  | countUnreadable
  /-- Raised by a host access at an index its buffer does not have (R38, R39). Safe: no such cell exists. -/
  | noSuchIndex
  /-- Raised by a host read of an `OUT` cell of which no value is known. Safe: nothing is claimed of it. -/
  | unwrittenOutput
deriving DecidableEq, Repr

/-- What the spec gives no meaning to (`refuse`, R10). -/
inductive Refusal where
  /-- An operation without a meaning yet, by its mnemonic: raised by `exec` only. Safe. -/
  | notModelled (mnemonic : String)
  /-- Raised by an operation whose `require` line is false (R10, R105, R171, R181). Safe: the sequencer never selects it there. -/
  | notEnabled
  /-- Raised by `memRead` at an index at or past `LEN` (R52). Safe: no rule issues such a read. -/
  | readPastLength
  /-- Raised by `memWrite` at an index below `CAP` but at or past `N_out(LEN)` (R110, its last paragraph). Safe: no call
  reaches such a write. -/
  | writePastCount
  /-- Raised by `selected` in RUN with `IC > LEN`, where `LEN - IC` has no meaning (R9, R29). Safe: never reached. -/
  | cursorPastLength
  /-- Raised by START in RUN (R102, R216). Unsafe: a host that does it is outside the model (R228). -/
  | startDuringRun
  /-- Raised by START: `P_CAP` is false (R203). Safe. -/
  | capacityPremise
  /-- Raised by START: `P_FIT` is false (R204). Safe. -/
  | countWidth
  /-- Raised by START: `P_DISJOINT` is false (R205). Safe. -/
  | aliasPremise
  /-- Raised by START: a cell of a buffer would have an address of more than `AW` bits (R7, R50, R54; log 20). Safe. -/
  | addressWidth
  /-- Raised by START: fewer than `len` input bytes are handed over (R101, R223). Safe. -/
  | inputPremise
  /-- Raised by a host access to `IN` or `OUT` in RUN (R226 to R228). Unsafe: a host that does it is outside the model. -/
  | bufferBusy
deriving DecidableEq, Repr

/-- The machine right after reset (R43, R220): `PHASE` is IDLE. `LEN`, `IC`, `OC` and `CNT` hold no value in the spec
and 0 here (log 2); no buffer has been handed over (log 3). -/
def State.reset : State where
  phase    := .idle
  len      := 0
  ic       := 0
  oc       := 0
  cnt      := 0
  inMem    := []
  outMem   := []
  cap      := 0
  inBase   := 0
  outBase  := 0
  agenda   := []
  accesses := []
  draws    := 0

/-- What an operation answers: a value, a fault or a refusal. -/
abbrev Answer (α : Type) := Host.Outcome α Fault Refusal

end Sys2Proof.Machine
end

