-- ==== Sys2Proof/Machine/Memory.lean ====
section
/-!
DEFINITION. A memory as a list of cells in one canonical form: its read, its write and its well-formedness.
-/

namespace Sys2Proof.Machine

/-- What an index that is not listed reads as: no value (DESIGN CHOICE, log 4). -/
def Memory.unlisted : Option Byte := none

/-- The byte at index `a`. -/
def Memory.read : Memory → Nat → Option Byte
  | [], _ => Memory.unlisted
  | (k, b) :: m, a => if a = k then some b else Memory.read m a

/-- The memory with byte `b` at index `a`. No byte equals what an unlisted index reads as, so every write lists its cell. -/
def Memory.write : Memory → Nat → Byte → Memory
  | [], a, b => [(a, b)]
  | (k, c) :: m, a, b =>
    if a < k then (a, b) :: (k, c) :: m
    else if a = k then (a, b) :: m
    else (k, c) :: Memory.write m a b

/-- All listed indices are at or above `lo`, strictly rising. -/
def Memory.risingFrom (lo : Nat) : Memory → Bool
  | [] => true
  | (k, _) :: m => decide (lo ≤ k) && Memory.risingFrom (k + 1) m

/-- The canonical form: indices strictly rise, and no entry equals what an unlisted index reads as. -/
def Memory.wf (m : Memory) : Bool :=
  Memory.risingFrom 0 m && m.all fun c => some c.2 != Memory.unlisted

/-- A buffer filled with `bs` from index `k` on. -/
def Memory.ofBytesFrom : Nat → List Byte → Memory
  | _, [] => []
  | k, b :: bs => (k, b) :: Memory.ofBytesFrom (k + 1) bs

/-- A buffer filled with `bs` from index 0 on. -/
def Memory.ofBytes (bs : List Byte) : Memory :=
  Memory.ofBytesFrom 0 bs

end Sys2Proof.Machine
end

