-- ==== Sys2Proof/Machine/Operands.lean ====
section
/-!
DEFINITION. Operand assembly: 32bit_big_endian_word_parser, WP (41_word_parser.md). The word of a group is the only
operand assembled from memory (30_encoding.md R84).
-/

namespace Sys2Proof.Machine

/-- The word with `b0` in bits 31 to 24 and `b3` in bits 7 to 0 (R83, R121). -/
def assemble (b0 b1 b2 b3 : Byte) : Word32 :=
  b0 ++ b1 ++ b2 ++ b3

/-- Lane `k` of a group: its byte, or the constant 0 where the group has none (R84, R123). -/
def lane (bs : List Byte) (k : Nat) : Byte :=
  bs.getD k 0

/-- WP: the word of a group of 1 to 4 bytes, left-justified (R121, R123, R124). -/
def parseWord (bs : List Byte) : Word32 :=
  assemble (lane bs 0) (lane bs 1) (lane bs 2) (lane bs 3)

end Sys2Proof.Machine
end

