-- ==== Sys2Proof/Machine/Ops.lean ====
section
/-!
DEFINITION. The named operations over memory and registers: the primitives of 00_scope.md R10 and what the group
operations share. The block raises no exception and returns from none (60_exceptions.md R200, R207, R208), so there is
no exception entry here.
-/

namespace Sys2Proof.Machine

/-- `f` on the value that `o` answers; a stop stays a stop. -/
def andThen {α β : Type} (o : Answer α) (f : α → Answer β) : Answer β :=
  match o with
  | .next a => f a
  | .fault r => .fault r
  | .refused r => .refused r

/-- The state with one access more in its history (R72). -/
def State.note (s : State) (a : Access) : State :=
  { s with accesses := s.accesses ++ [a] }

/-- `MemRead(IN, i, 1)`: admitted only when `i < LEN` (R52). The read changes nothing but the model's history (R51). -/
def memRead (s : State) (i : Nat) : Answer (Byte × State) :=
  if i < s.len then
    match s.inMem.read i with
    | some b => .next (b, s.note (.read i b))
    | none => .fault .unwrittenInput
  else .refused .readPastLength

/-- The state with character `c` at index `j` of `OUT`, and the access in its history. -/
def State.putOut (s : State) (j : Nat) (c : Byte) : State :=
  { s with outMem := s.outMem.write j c, accesses := s.accesses ++ [.write j c] }

/-- `MemWrite(OUT, j, 1, c)`: admitted only when `j < CAP` (R54); past it a model that meets it faults (R203). Within it, a
write at or past `N_out(LEN)` is what the block may not do, and is refused (R110). Where both hold, R203's fault comes
first (log 18). -/
def memWrite (s : State) (j : Nat) (c : Byte) : Answer State :=
  if j < s.cap then
    if j < nOut s.len then .next (s.putOut j c) else .refused .writePastCount
  else .fault .outputOverflow

/-- `n` bytes of `IN` from index `i` on, in ascending order (R65 item 5, 93 U7). -/
def readBytes : Nat → Nat → State → Answer (List Byte × State)
  | 0, _, s => .next ([], s)
  | n + 1, i, s =>
    andThen (memRead s i) fun r =>
    andThen (readBytes n (i + 1) r.2) fun q => .next (r.1 :: q.1, q.2)

/-- The characters `cs` to `OUT` from index `j` on, in ascending order (R55, R65 item 2). -/
def writeChars : List Byte → Nat → State → Answer State
  | [], _, s => .next s
  | c :: cs, j, s => andThen (memWrite s j c) fun t => writeChars cs (j + 1) t

/-- The cursors past a group of `n` bytes and `m` characters (R24, R25). -/
def State.advance (s : State) (n m : Nat) : State :=
  { s with ic := s.ic + n, oc := s.oc + m }

/-- One group of `n` bytes (R170, R180): its bytes, its word, its characters (which `chars` computes from the word),
then the cursors. Every read comes before every write (R65 item 2). -/
def encodeGroup (n : Nat) (chars : Word32 → List Byte) (s : State) : Answer State :=
  andThen (readBytes n s.ic s) fun r =>
  andThen (writeChars (chars (parseWord r.1)) s.oc r.2) fun t =>
  .next (t.advance n (chars (parseWord r.1)).length)

end Sys2Proof.Machine
end

