-- ==== Sys2Proof/Machine/Finish.lean ====
section
/-!
DEFINITION. The end of a call: ENC.FINISH (40_sequencer_and_call.md R105).
-/

namespace Sys2Proof.Machine

/-- The state with the count latched and the call ended (R105). -/
def State.finish (s : State) : State :=
  { s with cnt := s.oc, phase := .done }

/-- ENC.FINISH (R105). Its guard is `PHASE = RUN and LEN - IC = 0`. -/
def execEncFinish (s : State) : Answer State :=
  if s.phase = .run ∧ s.ic = s.len then .next s.finish else .refused .notEnabled

end Sys2Proof.Machine
end

