-- ==== Sys2Proof/Config.lean ====
section
/-!
DEFINITION. What an implementation fixes and the spec leaves open, as constants without a body: the widths `LW` and `AW`,
the slots and codes of the two images of Table B, and the free bytes that a RESET during RUN leaves in `OUT`.
-/

namespace Sys2Proof

/-- The width `LW` of `LEN`, `IC`, `OC` and `CNT`: a positive number of bits, or no bound (00_scope.md R7, D3). -/
inductive Width where
  | unbounded
  | bits (n : Nat) (positive : 0 < n)
deriving Inhabited

/-- The four open values of Table B, with everything that 43_dual_lut_lookup.md R159 requires of them. The default
values are those of configuration X of 95_test_vectors.md Part 7; they only show Lean that the type has a member, and
no proof about `Config.tableB` can see them. -/
structure TableB where
  sFull : Digit := 84
  cFull : Byte := 0x20
  sTail : Digit := 83
  cTail : Byte := 0x20
  /-- R157, `B_ZERO`: slot 0 of the full-group image is not the divergent one. -/
  sFull_ne_zero : sFull ≠ 0 := by decide
  /-- R157, `B_ZERO`: the same for the tail image (the spec's decision D9). -/
  sTail_ne_zero : sTail ≠ 0 := by decide
  /-- R159: the stored code is the space or a printable character, 0x20 to 0x7E. -/
  cFull_printable : 0x20 ≤ cFull ∧ cFull ≤ 0x7E := by decide
  /-- R159: the same for the tail image. -/
  cTail_printable : 0x20 ≤ cTail ∧ cTail ≤ 0x7E := by decide
  /-- R156, `B_SPACE`: at least one image holds the space at its divergent slot. -/
  space : cFull = 0x20 ∨ cTail = 0x20 := by decide
  /-- R158, `B_DISTINCT`: the two images are not the same table. -/
  distinct : ¬ (sFull = sTail ∧ cFull = cTail) := by decide
deriving Inhabited

/-- `LW` of this implementation: open (R7, log 1). -/
opaque Config.lengthWidth : Width

/-- `AW` of this implementation, the width in bits of a memory address: open (R7, D17, log 20). -/
opaque Config.addressWidth : Nat

/-- Table B of this implementation: open but for the properties of R155 to R158 (log 5). -/
opaque Config.tableB : TableB

/-- The `n`-th free byte: nothing is known of it (70_reset_and_hazards.md R221, 93 U4; log 11). -/
opaque Config.freeByte : Nat → Byte

end Sys2Proof
end

