-- ==== Sys2Proof/Machine/Lut.lean ====
section
/-!
DEFINITION. dual_lut_lookup, LUT (43_dual_lut_lookup.md): Table A and the two stored images of Table B, each a total
function of a digit.
-/

namespace Sys2Proof.Machine

/-- `LUT_A`, index 0 first: the glyphs are the document's (R151), their codes are ASCII (log 6), index 82 is the
solidus as printed (R152, log 7). -/
def lutATable : List Byte :=
  [0x30, 0x31, 0x32, 0x33, 0x34, 0x35, 0x36, 0x37, 0x38, 0x39, 0x41, 0x42, 0x43, 0x44, 0x45, 0x46, 0x47] ++
  [0x48, 0x49, 0x4A, 0x4B, 0x4C, 0x4D, 0x4E, 0x4F, 0x50, 0x51, 0x52, 0x53, 0x54, 0x55, 0x56, 0x57, 0x58] ++
  [0x59, 0x5A, 0x61, 0x62, 0x63, 0x64, 0x65, 0x66, 0x67, 0x68, 0x69, 0x6A, 0x6B, 0x6C, 0x6D, 0x6E, 0x6F] ++
  [0x70, 0x71, 0x72, 0x73, 0x74, 0x75, 0x76, 0x77, 0x78, 0x79, 0x7A, 0x21, 0x23, 0x24, 0x25, 0x26, 0x28] ++
  [0x29, 0x2A, 0x2B, 0x2D, 0x3B, 0x3C, 0x3D, 0x3E, 0x3F, 0x40, 0x5E, 0x5F, 0x60, 0x7B, 0x2F, 0x7D, 0x7E]

/-- Port A (R161). -/
def lutA (d : Digit) : Byte :=
  lutATable.get (d.cast (by decide))

/-- `LUT_B_FULL`, port B in a full group (R159, R160, R162). -/
def lutBFull (t : TableB) (d : Digit) : Byte :=
  if d = t.sFull then t.cFull else lutA d

/-- `LUT_B_TAIL`, port B in a tail group (R159, R160, R162). -/
def lutBTail (t : TableB) (d : Digit) : Byte :=
  if d = t.sTail then t.cTail else lutA d

end Sys2Proof.Machine
end

