-- ==== Sys2Proof/Machine/Quintet.lean ====
section
/-!
DEFINITION. quintet_extractor, QX (42_quintet_extractor.md): the five base-85 digits of a word by four divisions by
constants. Every value is an unsigned integer (R140), so the chain is written over natural numbers.
-/

namespace Sys2Proof.Machine

/-- `K4 = 85^4` (R6, R136). -/
abbrev k4 : Nat := 52200625
/-- `K3 = 85^3` (R6, R136). -/
abbrev k3 : Nat := 614125
/-- `K2 = 85^2` (R6, R136). -/
abbrev k2 : Nat := 7225
/-- `K1 = 85` (R6, R136). -/
abbrev k1 : Nat := 85

/-- The remainder `v1` of stage 0 (R132). -/
def rem1 (v : Word32) : Nat := v.toNat % k4

/-- The remainder `v2` of stage 1 (R133). -/
def rem2 (v : Word32) : Nat := rem1 v % k3

/-- The remainder `v3` of stage 2 (R134). -/
def rem3 (v : Word32) : Nat := rem2 v % k2

/-- The digit `d0` of stage 0 (R132). -/
def digit0 (v : Word32) : Digit :=
  ⟨v.toNat / k4, by have := v.isLt; simp only [k4]; omega⟩

/-- The digit `d1` of stage 1 (R133). -/
def digit1 (v : Word32) : Digit :=
  ⟨rem1 v / k3, by simp only [rem1, k4, k3]; omega⟩

/-- The digit `d2` of stage 2 (R134). -/
def digit2 (v : Word32) : Digit :=
  ⟨rem2 v / k2, by simp only [rem2, k3, k2]; omega⟩

/-- The digit `d3` of stage 3 (R135). -/
def digit3 (v : Word32) : Digit :=
  ⟨rem3 v / k1, by simp only [rem3, k2, k1]; omega⟩

/-- The digit `d4` of stage 3 (R135). -/
def digit4 (v : Word32) : Digit :=
  ⟨rem3 v % k1, by simp only [k1]; omega⟩

end Sys2Proof.Machine
end

