-- ==== Sys2Proof/Machine/FullGroup.lean ====
section
/-!
DEFINITION. The full-group operation ENC.FULL (44_full_group.md).
-/

namespace Sys2Proof.Machine

/-- The five characters of a full group with word `v`: Table A once, then `LUT_B_FULL` (R86, R171). -/
def fullGroupChars (t : TableB) (v : Word32) : List Byte :=
  [lutA (digit0 v), lutBFull t (digit1 v), lutBFull t (digit2 v), lutBFull t (digit3 v), lutBFull t (digit4 v)]

/-- ENC.FULL (R171). Its guard is `PHASE = RUN and LEN - IC >= 4`. -/
def execEncFull (s : State) : Answer State :=
  if s.phase = .run ∧ s.ic + 4 ≤ s.len then encodeGroup 4 (fullGroupChars Config.tableB) s
  else .refused .notEnabled

end Sys2Proof.Machine
end

