-- ==== Sys2Proof/Machine/TailGroup.lean ====
section
/-!
DEFINITION. tail_group_handler, TGH: ENC.TAIL1, ENC.TAIL2 and ENC.TAIL3 (45_tail_group_handler.md).
-/

namespace Sys2Proof.Machine

/-- The `r + 1` characters of a tail of `r` bytes with word `v`: Table A once, then `LUT_B_TAIL` (R86, R181). The
digits after them are dropped (R186). -/
def tailGroupChars (t : TableB) (r : Nat) (v : Word32) : List Byte :=
  [lutA (digit0 v), lutBTail t (digit1 v), lutBTail t (digit2 v), lutBTail t (digit3 v)].take (r + 1)

/-- ENC.TAILr (R181), for `r` = 1, 2, 3. Its guard is `PHASE = RUN and LEN - IC = r`. -/
def encodeTail (r : Nat) (s : State) : Answer State :=
  if s.phase = .run ∧ s.ic + r = s.len then encodeGroup r (tailGroupChars Config.tableB r) s
  else .refused .notEnabled

/-- ENC.TAIL1 (R182). -/
def execEncTail1 (s : State) : Answer State := encodeTail 1 s

/-- ENC.TAIL2 (R183). -/
def execEncTail2 (s : State) : Answer State := encodeTail 2 s

/-- ENC.TAIL3 (R184). -/
def execEncTail3 (s : State) : Answer State := encodeTail 3 s

end Sys2Proof.Machine
end

