-- ==== Sys2Proof/Machine/Dispatch.lean ====
section
/-!
DEFINITION. One arm per operation of Instr, each a direct call of its meaning.
-/

namespace Sys2Proof.Machine

def exec (i : Instr) (s : State) : Host.Outcome State Fault Refusal :=
  match i with
  | .encFull => Sys2Proof.Machine.execEncFull s
  | .encTail1 => Sys2Proof.Machine.execEncTail1 s
  | .encTail2 => Sys2Proof.Machine.execEncTail2 s
  | .encTail3 => Sys2Proof.Machine.execEncTail3 s
  | .encFinish => Sys2Proof.Machine.execEncFinish s

end Sys2Proof.Machine
end

