-- ==== Sys2Proof/WellFormed.lean ====
section
/-!
DEFINITION. What is well formed. An operation has no operand field (30_encoding.md R81), so every operation is well
formed. A written call is well formed when its operation lines are those its length decides (R90, R91).
-/

namespace Sys2Proof

/-- Every operation is well formed: there is no field that could be out of range (R81). -/
def Instr.wellFormed : Instr → Bool
  | .encFull => true
  | .encTail1 => true
  | .encTail2 => true
  | .encTail3 => true
  | .encFinish => true

/-- The tail line of a call whose last group has `r` bytes: at most one (R91). -/
def tailLine : Nat → List Instr
  | 1 => [.encTail1]
  | 2 => [.encTail2]
  | 3 => [.encTail3]
  | _ => []

/-- The operation lines of `ENCODE` of `n` bytes: full groups, then at most one tail, then the finish (R91, R104). -/
def expansion (n : Nat) : List Instr :=
  List.replicate (n / 4) .encFull ++ (tailLine (n % 4) ++ [.encFinish])

/-- A listing has exactly as many full-group lines as its length has full groups (R90, R91). -/
def Listing.fullLinesOk (c : Listing) : Bool :=
  c.ops.count .encFull == c.len / 4

/-- What follows the full-group lines is the tail line, if any, and one finish line (R90, R91). -/
def Listing.endLinesOk (c : Listing) : Bool :=
  c.ops.drop (c.len / 4) == tailLine (c.len % 4) ++ [.encFinish]

/-- A written call is well formed when both checks pass. -/
def Listing.wellFormed (c : Listing) : Bool :=
  c.fullLinesOk && c.endLinesOk

end Sys2Proof
end

