-- ==== Sys2Proof/Decode.lean ====
section
/-!
DEFINITION. The decoder of the operation selector and, after it, the encoder, both from the opcode map of
30_encoding.md R81. `SEL` is a value the sequencer computes, not a stored word (R80): where bytes are asked for, one
byte carries `SEL` in its low three bits, the rest being zero (DESIGN CHOICE, log 26).
-/

namespace Sys2Proof

/-- The operation that `SEL` selects, row by row of R81, in `(SEL & mask) == match` form (R92). The last row,
`000`, takes what the others leave: the decode is total (R82). -/
def decode (sel : Selector) : Instr :=
  if sel &&& 0b100#3 = 0b100#3 then .encFull
  else if sel &&& 0b111#3 = 0b001#3 then .encTail1
  else if sel &&& 0b111#3 = 0b010#3 then .encTail2
  else if sel &&& 0b111#3 = 0b011#3 then .encTail3
  else .encFinish

/-- Why bytes give no operation. -/
inductive DecodeError where
  /-- There is no byte to read. -/
  | noByte
  /-- A bit above the three of `SEL` is set: no value of `SEL` (R80). -/
  | notSelector
deriving DecidableEq, Repr

/-- The operation of a byte sequence and the bytes after it, or the reason there is none (log 26). -/
def decodeBytes : List Byte → Except DecodeError (Instr × List Byte)
  | [] => .error .noByte
  | b :: rest => if b.toNat < 8 then .ok (decode (b.setWidth 3), rest) else .error .notSelector

/-- The bytes of the first `nbits` bits of `w`, lowest address first, one byte for each started eight bits (at least
one: a selector takes a byte). -/
def layOut (nbits w : Nat) : List Byte :=
  (List.range (max 1 ((nbits + 7) / 8))).map fun k => BitVec.ofNat 8 (w % 2 ^ nbits / 2 ^ (8 * k))

/-- The host's question: the operation that the decoder reads from bits numbered as spec/opcode_table.json numbers them. -/
def decodeTableWord (nbits w : Nat) : Option Instr :=
  match decodeBytes (layOut nbits w) with
  | .ok (i, _) => some i
  | .error _ => none

/-- The selector of an operation (R81). `low` fills the two bits that `ENC.FULL` leaves to `RB mod 4`; the other
operations have no free bit. -/
def encode (i : Instr) (low : BitVec 2) : Selector :=
  match i with
  | .encFull => 0b1#1 ++ low
  | .encTail1 => 0b001#3
  | .encTail2 => 0b010#3
  | .encTail3 => 0b011#3
  | .encFinish => 0b000#3

end Sys2Proof
end

