-- ==== Sys2Proof/Machine/Flags.lean ====
section
/-!
DEFINITION. The block has no flag, condition code or predicate (10_state.md R33). What stands in their place are the
views computed from the registers (R28), the selector among them (30_encoding.md R80), and the two status levels that
the host reads from `PHASE` (R22, R41).
-/

namespace Sys2Proof.Machine

/-- The 2-bit code of `PHASE` (R22). -/
def Phase.code : Phase → BitVec 2
  | .idle => 0
  | .run => 1
  | .done => 2

/-- `busy`: a call is in progress (R41). -/
def State.busy (s : State) : Bool := s.phase == .run

/-- `done`: the last call has finished (R41). -/
def State.finished (s : State) : Bool := s.phase == .done

/-- `FG`, the number of full groups of the call (R28). -/
def State.fullGroups (s : State) : Nat := s.len / 4

/-- `REM`, the size of the tail (R28). -/
def State.remainder (s : State) : Nat := s.len % 4

/-- `RB`, the bytes not yet consumed (R28). It has a meaning where `IC <= LEN` (R9); `selected` checks that. -/
def State.bytesLeft (s : State) : Nat := s.len - s.ic

/-- `G`, the number of full groups done (R28). -/
def State.groupsDone (s : State) : Nat := s.ic / 4

/-- The selector for `rb` remaining bytes: bit 2 says whether `rb >= 4`, bits 1 and 0 are `rb mod 4` (R80). -/
def selectorOf (rb : Nat) : Selector :=
  BitVec.ofBool (decide (4 ≤ rb)) ++ BitVec.ofNat 2 rb

/-- `SEL` (R28, R80). -/
def State.sel (s : State) : Selector := selectorOf s.bytesLeft

/-- The bus address of index `i` of `IN` (R50). In a running call it has `AW` bits (`LaunchInv`). -/
def State.inAddress (s : State) (i : Nat) : Nat := s.inBase + i

/-- The bus address of index `j` of `OUT` (R54). In a running call it has `AW` bits (`LaunchInv`). -/
def State.outAddress (s : State) (j : Nat) : Nat := s.outBase + j

end Sys2Proof.Machine
end

