-- ==== Sys2Proof/Machine/Host.lean ====
section
/-!
DEFINITION. The host's moves: RESET (70_reset_and_hazards.md R220, R221), START with its premises
(40_sequencer_and_call.md R101, R102, R111), RESULT (R107), and the host's accesses to the buffers (10_state.md R42).
-/

namespace Sys2Proof.Machine

/-- Whether `x` is below `2^LW`: no bound refuses nothing (R7, R204). -/
def fitsWidth : Width → Nat → Bool
  | .unbounded, _ => true
  | .bits n _, x => decide (x < 2 ^ n)

/-- Whether the address ranges of `m` cells from `a` on and of `n` cells from `b` on have no address in common (R63). -/
def disjointSpans (a m b n : Nat) : Bool :=
  m == 0 || n == 0 || decide (a + m ≤ b) || decide (b + n ≤ a)

/-- `P_CAP` (R111, R203). -/
def launchCapOk (l : Launch) : Bool := decide (capReq l.len ≤ l.cap)

/-- `P_FIT` (R111, R204), for a register width `w`. -/
def launchFits (w : Width) (l : Launch) : Bool := fitsWidth w (nOut l.len)

/-- `P_DISJOINT` (R63, R111, R205). -/
def launchDisjoint (l : Launch) : Bool := disjointSpans l.inBase l.len l.outBase l.cap

/-- Whether the base `a` and the addresses of `n` cells from it on are addresses of `aw` bits (R7 `AW`; log 20). -/
def spanFits (aw a n : Nat) : Bool := decide (a < 2 ^ aw) && decide (a + n ≤ 2 ^ aw)

/-- Every cell of the two buffers has an address, for addresses of `aw` bits (R50, R54; log 20). -/
def launchAddressable (aw : Nat) (l : Launch) : Bool := spanFits aw l.inBase l.len && spanFits aw l.outBase l.cap

/-- `IN` holds `len` bytes (R101; R223 item 1). -/
def launchHasInput (l : Launch) : Bool := decide (l.len ≤ l.input.length)

/-- The state right after START has taken launch `l` (R101): the three register writes and the phase, and the launch
memory in place. `CNT` is not written. DESIGN CHOICE (log 30): the launch memory is all that `IN` and `OUT` hold from here
on; what a `writeIn` or `writeOut` left in the buffers of an earlier launch is dropped, at the same bases too. -/
def State.launched (s : State) (l : Launch) : State :=
  { s with
    phase := .run, len := l.len, ic := 0, oc := 0
    inMem := Memory.ofBytes (l.input.take l.len), outMem := Memory.ofBytes (l.output.take l.cap)
    cap := l.cap, inBase := l.inBase, outBase := l.outBase, accesses := [] }

/-- START with registers of width `w` and addresses of `aw` bits (R101): from IDLE or DONE (R102), under the launch premises
(R111), with buffers that have addresses (log 20) and the input bytes there (log 13). `P_STABLE` needs no check: the host
has no move that touches the buffers in RUN (R228). `P_TABLES` is in the type of `Config.tableB`. -/
def startWith (w : Width) (aw : Nat) (l : Launch) (s : State) : Answer State :=
  if s.phase = .run then .refused .startDuringRun
  else if !launchCapOk l then .refused .capacityPremise
  else if !launchFits w l then .refused .countWidth
  else if !launchDisjoint l then .refused .aliasPremise
  else if !launchAddressable aw l then .refused .addressWidth
  else if !launchHasInput l then .refused .inputPremise
  else .next (s.launched l)

/-- START on this implementation's widths. -/
def hostStart (l : Launch) (s : State) : Answer State :=
  startWith Config.lengthWidth Config.addressWidth l s

/-- Free bytes at indices 0 to `n - 1`, the first of them draw number `d` (R221, 93 U4; log 11). -/
def fillFree : Nat → Nat → Memory → Memory
  | 0, _, m => m
  | n + 1, d, m => (fillFree n d m).write n (Config.freeByte (d + n))

/-- How many cells of `OUT` a RESET leaves open: those below `N_out(LEN)` in RUN, none otherwise (R43, R221). -/
def openCells (s : State) : Nat :=
  if s.phase = .run then min (nOut s.len) s.cap else 0

/-- The state after RESET (R43, R220, R221). The registers go back to what `State.reset` gives them (log 2); `IN` is not
touched, `OUT` only where R221 leaves it open. -/
def State.afterReset (s : State) : State :=
  { s with
    phase := State.reset.phase, len := State.reset.len, ic := State.reset.ic, oc := State.reset.oc
    cnt := State.reset.cnt, accesses := State.reset.accesses
    outMem := fillFree (openCells s) s.draws s.outMem, draws := s.draws + openCells s }

/-- RESET, admitted in any phase (R220). -/
def hostReset (s : State) : Answer State := .next s.afterReset

/-- What the host reads of `CNT`: a value in DONE only (R107; log 16). -/
def readCount (s : State) : Answer Nat :=
  if s.phase = .done then .next s.cnt else .fault .countUnreadable

/-- What the host reads at index `i` of `IN`, outside RUN (R42). -/
def hostReadIn (i : Nat) (s : State) : Answer Byte :=
  if s.phase = .run then .refused .bufferBusy
  else match s.inMem.read i with
    | some b => .next b
    | none => .fault .noSuchIndex

/-- What the host reads at index `j` of `OUT`, outside RUN (R42, R107). -/
def hostReadOut (j : Nat) (s : State) : Answer Byte :=
  if s.phase = .run then .refused .bufferBusy
  else if j < s.cap then
    match s.outMem.read j with
    | some c => .next c
    | none => .fault .unwrittenOutput
  else .fault .noSuchIndex

/-- The state with byte `b` at index `i` of `IN`, by the host. -/
def State.withIn (s : State) (i : Nat) (b : Byte) : State := { s with inMem := s.inMem.write i b }

/-- The state with byte `c` at index `j` of `OUT`, by the host. -/
def State.withOut (s : State) (j : Nat) (c : Byte) : State := { s with outMem := s.outMem.write j c }

/-- The host writes index `i` of `IN`, outside RUN, where the buffer has that index (R42, R226; log 25). -/
def hostWriteIn (i : Nat) (b : Byte) (s : State) : Answer State :=
  if s.phase = .run then .refused .bufferBusy
  else match s.inMem.read i with
    | some _ => .next (s.withIn i b)
    | none => .fault .noSuchIndex

/-- The host writes index `j` of `OUT`, outside RUN, where the buffer has that index (R42, R227; log 25). -/
def hostWriteOut (j : Nat) (c : Byte) (s : State) : Answer State :=
  if s.phase = .run then .refused .bufferBusy
  else if j < s.cap then .next (s.withOut j c) else .fault .noSuchIndex

/-- One move of the host (R40, R42). The reads change nothing (R107); what they return is what `readCount`,
`hostReadIn` and `hostReadOut` answer. -/
def hostMove (m : HostMove) (s : State) : Answer State :=
  match m with
  | .reset => hostReset s
  | .start l => hostStart l s
  | .result => andThen (readCount s) fun _ => .next s
  | .readIn i => andThen (hostReadIn i s) fun _ => .next s
  | .readOut j => andThen (hostReadOut j s) fun _ => .next s
  | .writeIn i b => hostWriteIn i b s
  | .writeOut j c => hostWriteOut j c s

/-- The whole result as the host reads it: `OUT[0..CNT-1]` (R107). -/
def readText (s : State) : Answer (List Byte) :=
  andThen (readCount s) fun n =>
    (List.range n).foldr (fun j acc => andThen (hostReadOut j s) fun c => andThen acc fun cs => .next (c :: cs)) (.next [])

end Sys2Proof.Machine
end

