-- ==== Sys2Proof/Machine/Sequencer.lean ====
section
/-!
DEFINITION. The group sequencer, SEQ (40_sequencer_and_call.md): whose turn it is, and which operation the encoder's
step is (R103). There is no program counter and no instruction fetch (10_state.md R26, 20_memory.md R69): the selector
stands in their place.
-/

namespace Sys2Proof.Machine

/-- The state with turns `ts` to come. -/
def State.withAgenda (s : State) (ts : List Turn) : State := { s with agenda := ts }

/-- The move of the host that a turn comes to, or none where the turn is a step of the encoder. A RESET that coincides
with another move wins: nothing of the other move happens (60_exceptions.md R202; log 27). -/
def moveOf : Turn → Option HostMove
  | .encoder => none
  | .host m => some m
  | .resetWith _ => some .reset

/-- The move of the next turn; no turn listed means a step of the encoder (log 8). -/
def State.nextMove (s : State) : Option HostMove :=
  match s.agenda with
  | [] => none
  | t :: _ => moveOf t

/-- The state with the next turn taken off the agenda. -/
def State.turnTaken (s : State) : State := s.withAgenda s.agenda.tail

/-- The operation of the encoder's step: in RUN the one that `SEL` selects, in IDLE and DONE none (R103). -/
def selected (s : State) : Answer (Option Instr) :=
  match s.phase with
  | .idle => .next none
  | .done => .next none
  | .run => if s.ic ≤ s.len then .next (some (decode s.sel)) else .refused .cursorPastLength

/-- The launch whose first operation has selector `k`: `k` bytes of zero, just enough room, buffers side by side. It
is no part of the machine: only `State.withFetchWord` uses it (log 22). -/
def selectorLaunch (k : Nat) : Launch where
  len     := k
  inBase  := 0
  outBase := k
  cap     := capReq k
  input   := List.replicate k 0
  output  := []

end Sys2Proof.Machine
end

