-- ==== Sys2Proof/Machine/Step.lean ====
section
/-!
DEFINITION. One step of the machine: the turn that comes next, taken by the encoder or by the host.
-/

namespace Sys2Proof.Machine

/-- The encoder's step: the selected operation (R103). In IDLE and DONE it has none and waits: the state stays (R215, log 9). -/
def encoderStep (s : State) : Host.Outcome State Fault Refusal :=
  andThen (selected s) fun
    | some i => exec i s
    | none => .next s

/-- One step (R20): the host's move or the encoder's step, as the agenda says. -/
def step (s : State) : Host.Outcome State Fault Refusal :=
  match s.nextMove with
  | some m => hostMove m s.turnTaken
  | none => encoderStep s.turnTaken

/-- The state in which the very next step runs the operation whose selector is `w` (log 22). A call of `w` bytes has
`SEL = w` at its first step, for `w` = 0 to 7; a larger `w` is no selector and changes nothing. -/
def State.withFetchWord (s : State) (nbits w : Nat) : State :=
  let k := w % 2 ^ nbits
  if k < 8 then (s.launched (selectorLaunch k)).withAgenda [] else s

end Sys2Proof.Machine
end

