-- ==== Sys2Proof/Safety.lean ====
section
/-!
DEFINITION. What counts as a safe run, in the terms the claims use: the invariant of a call, its launch premises, its
memory accesses in order, and the text a call must write, computed in one piece from the input.
-/

namespace Sys2Proof.Machine

/-- `k` steps of the machine, as the host runs it (Host/Core.lean), on this model's own state type. -/
def runSteps (k : Nat) (s : State) : Host.Outcome State Fault Refusal :=
  Host.Core.run core k s

/-- The invariant of a call (10_state.md R29): in RUN the cursors stand between groups and `OC = N_out(IC)`; in DONE the
whole input is consumed and `CNT = N_out(LEN)`. -/
abbrev State.CallInv (s : State) : Prop :=
  (s.phase = .run → s.ic ≤ s.len ∧ (s.ic % 4 = 0 ∨ s.ic = s.len) ∧ s.oc = nOut s.ic) ∧
  (s.phase = .done → s.ic = s.len ∧ s.oc = nOut s.len ∧ s.cnt = nOut s.len)

/-- The buffers of a running call are as its launch handed them over: room for `CAP_req(LEN)` characters (R111 `P_CAP`) and
a byte at every index of `IN` below `LEN` (20_memory.md R50). -/
abbrev State.BufferInv (s : State) : Prop :=
  s.phase = .run → capReq s.len ≤ s.cap ∧ ∀ i, i < s.len → (s.inMem.read i).isSome = true

/-- The other premises of a launch hold while its call runs, for registers of width `w` and addresses of `aw` bits: the
count fits (R111 `P_FIT`), the buffers have no address in common (R111 `P_DISJOINT`), and the bases and every cell have
addresses of `aw` bits (R7 `AW`; log 20). -/
abbrev State.LaunchInv (w : Width) (aw : Nat) (s : State) : Prop :=
  s.phase = .run →
    fitsWidth w (nOut s.len) = true ∧ disjointSpans s.inBase s.len s.outBase s.cap = true ∧
    s.inBase < 2 ^ aw ∧ (∀ i, i < s.len → s.inAddress i < 2 ^ aw) ∧
    s.outBase < 2 ^ aw ∧ (∀ j, j < s.cap → s.outAddress j < 2 ^ aw)

/-- Both memories are in canonical form. -/
abbrev State.MemoryInv (s : State) : Prop :=
  Memory.wf s.inMem = true ∧ Memory.wf s.outMem = true

/-- Which cell an access touches. -/
inductive Touch where
  | read (i : Nat)
  | write (j : Nat)
deriving DecidableEq, Repr

/-- The cell of an access. -/
def Access.touch : Access → Touch
  | .read i _ => .read i
  | .write j _ => .write j

/-- The cells of a group of `n` bytes and `m` characters at cursors `i` and `j`: reads, then writes (R65 item 2). -/
def groupTouches (i n j m : Nat) : List Touch :=
  (List.range n).map (fun k => .read (i + k)) ++ (List.range m).map (fun k => .write (j + k))

/-- The cells that a call has touched when it has consumed `n` bytes: full group by full group (R65 item 3), full group
`g` at `4g` and `5g`, then the tail (20_memory.md R53, R55). -/
def callTouches (n : Nat) : List Touch :=
  (List.range (n / 4)).flatMap (fun g => groupTouches (4 * g) 4 (5 * g) 5) ++
  (if n % 4 = 0 then [] else groupTouches (4 * (n / 4)) (n % 4) (5 * (n / 4)) (n % 4 + 1))

/-- In RUN and DONE the accesses so far are exactly those that the consumed bytes call for, in order. -/
abbrev State.AccessInv (s : State) : Prop :=
  s.phase ≠ .idle → s.accesses.map Access.touch = callTouches s.ic

/-- How many encoder steps a running call still takes (R91, R104). -/
def State.stepsLeft (s : State) : Nat :=
  s.bytesLeft / 4 + (if s.bytesLeft % 4 = 0 then 0 else 1) + 1

/-- The word of a group of 1 to 4 bytes by the one formula of 41_word_parser.md R124. -/
def wordSum (bs : List Byte) : Nat :=
  (bs.zipIdx.map fun p => p.1.toNat * 2 ^ (8 * (3 - p.2))).sum

/-- The digit of weight `85^(4-p)` of `v` (42_quintet_extractor.md R139). -/
def positionalDigit (v p : Nat) : Digit :=
  ⟨v / 85 ^ (4 - p) % 85, Nat.mod_lt _ (by decide)⟩

/-- The character at position `p + 1` of a group with word `v`: Table A at position 1, else the image of Table B of its
kind (43_dual_lut_lookup.md R160). -/
def positionChar (t : TableB) (full : Bool) (v p : Nat) : Byte :=
  if p = 0 then lutA (positionalDigit v p)
  else if full then lutBFull t (positionalDigit v p)
  else lutBTail t (positionalDigit v p)

/-- The characters of a group of `bs`: five for 4 bytes, one more than its bytes for a tail (R86). -/
def groupText (t : TableB) (bs : List Byte) : List Byte :=
  (List.range (bs.length + 1)).map (positionChar t (bs.length == 4) (wordSum bs))

/-- The text of an input: full groups from the left, then the tail (40_sequencer_and_call.md R100, R104). -/
def encodeText (t : TableB) : List Byte → List Byte
  | [] => []
  | [b0] => groupText t [b0]
  | [b0, b1] => groupText t [b0, b1]
  | [b0, b1, b2] => groupText t [b0, b1, b2]
  | b0 :: b1 :: b2 :: b3 :: rest => groupText t [b0, b1, b2, b3] ++ encodeText t rest

/-- The characters of a group if both images of Table B were Table A (43_dual_lut_lookup.md R164). -/
def undivergedGroup (bs : List Byte) : List Byte :=
  (List.range (bs.length + 1)).map fun p => lutA (positionalDigit (wordSum bs) p)

/-- `ENC_A` of an input (R164): the text if both images of Table B were Table A. -/
def undivergedText : List Byte → List Byte
  | [] => []
  | [b0] => undivergedGroup [b0]
  | [b0, b1] => undivergedGroup [b0, b1]
  | [b0, b1, b2] => undivergedGroup [b0, b1, b2]
  | b0 :: b1 :: b2 :: b3 :: rest => undivergedGroup [b0, b1, b2, b3] ++ undivergedText rest

/-- `IN[0..LEN-1]` as a list (0 stands where a cell holds no value, which `BufferInv` rules out). -/
def State.inputText (s : State) : List Byte :=
  (List.range s.len).map fun i => (s.inMem.read i).getD 0

end Sys2Proof.Machine
end

