-- ==== Sys2Proof/Certificates/Slice0/Obligations.lean ====
section
/-!
DEFINITION. The statements about the model that the provers are asked to prove. Each docstring names the rules of spec/
that it formalises.
-/

open Sys2Proof Sys2Proof.Machine

/-! ### Selector and decode -/

/-- R81: the eight values of `SEL`, written out bit by bit, and the operation that each selects. -/
def Obligations.SelectorWordsDecode : Prop :=
  decode 0b100#3 = .encFull ∧ decode 0b101#3 = .encFull ∧ decode 0b110#3 = .encFull ∧ decode 0b111#3 = .encFull ∧
  decode 0b001#3 = .encTail1 ∧ decode 0b010#3 = .encTail2 ∧ decode 0b011#3 = .encTail3 ∧
  decode 0b000#3 = .encFinish

/-- The words of the opcode table in the byte layout that the model chooses (log 26: `SEL` in the low three bits of one
byte); no byte with a higher bit set gives an operation. -/
def Obligations.TableWordsDecode : Prop :=
  decodeTableWord 8 0b100 = some .encFull ∧ decodeTableWord 8 0b001 = some .encTail1 ∧
  decodeTableWord 8 0b010 = some .encTail2 ∧ decodeTableWord 8 0b011 = some .encTail3 ∧
  decodeTableWord 8 0b000 = some .encFinish ∧
  (∀ w, 8 ≤ w → w < 256 → decodeTableWord 8 w = none) ∧
  (∀ (b : Byte) (rest : List Byte), 8 ≤ b.toNat → decodeBytes (b :: rest) = .error .notSelector)

/-- R81, R92: decoding an encoded operation gives it back, whatever the two bits that ENC.FULL leaves open, and every
selector is a word of the operation it decodes to. -/
def Obligations.DecodeInvertsEncode : Prop :=
  (∀ (i : Instr) (low : BitVec 2), decode (encode i low) = i) ∧
  (∀ sel : Selector, encode (decode sel) (sel.setWidth 2) = sel)

/-- R80: `SEL[2]` says whether at least 4 bytes remain, and `SEL[1:0]` is the number of remaining bytes modulo 4. -/
def Obligations.SelectorReadsBytesLeft : Prop :=
  ∀ s : State, s.phase = .run → s.ic ≤ s.len →
    (s.sel.getLsbD 2 = true ↔ 4 ≤ s.len - s.ic) ∧ (s.sel.extractLsb 1 0).toNat = (s.len - s.ic) % 4

/-- R80, its last sentence (an inference the spec marks as its own): in a running call `SEL[2]` says whether a full
group is still to do, and when none is, before the tail, `SEL[1:0]` is `REM`. -/
def Obligations.SelectorFollowsGroups : Prop :=
  ∀ s : State, s.CallInv → s.phase = .run →
    (s.sel.getLsbD 2 = true ↔ s.groupsDone < s.fullGroups) ∧
    (s.sel.getLsbD 2 = false → s.ic % 4 = 0 → (s.sel.extractLsb 1 0).toNat = s.remainder)

/-- R103: the operation of the encoder's step by the bytes that remain; none in IDLE and DONE; and the choice reads
only `PHASE`, `LEN` and `IC`. -/
def Obligations.StepSelection : Prop :=
  (∀ s : State, s.phase = .run → s.ic ≤ s.len →
    (4 ≤ s.len - s.ic → selected s = .next (some .encFull)) ∧
    (s.len - s.ic = 1 → selected s = .next (some .encTail1)) ∧
    (s.len - s.ic = 2 → selected s = .next (some .encTail2)) ∧
    (s.len - s.ic = 3 → selected s = .next (some .encTail3)) ∧
    (s.len - s.ic = 0 → selected s = .next (some .encFinish))) ∧
  (∀ s : State, s.phase ≠ .run → selected s = .next none) ∧
  (∀ s t : State, s.phase = t.phase → s.len = t.len → s.ic = t.ic → selected s = selected t)

/-- A step runs the decoded operation: in RUN, with the encoder to move, `step` is `exec` of what `SEL` decodes to; an
encoder turn on the agenda is taken off first, and nothing else is added. -/
def Obligations.StepRunsDecodedOperation : Prop :=
  ∀ (s : State) (i : Instr), s.phase = .run → s.ic ≤ s.len → decode s.sel = i →
    (s.agenda = [] → step s = exec i s) ∧
    (∀ ts, s.agenda = .encoder :: ts → step s = exec i (s.withAgenda ts))

/-- R22, R215: in IDLE and DONE the encoder waits, and every register and cell keeps its value. That `step` answers the
unchanged state there is the model's choice (log 9). -/
def Obligations.EncoderWaitsOutsideRun : Prop :=
  ∀ s : State, s.phase ≠ .run →
    (s.agenda = [] → step s = .next s) ∧
    (∀ ts, s.agenda = .encoder :: ts → step s = .next (s.withAgenda ts))

/-- R91 and R104 (R104's count is an inference the spec marks as its own): the operations of a call are those of its
expansion, in order: the selected operation heads the expansion of the bytes that remain, and after a step of the
encoder that stays in RUN the rest of it is to come. -/
def Obligations.CallFollowsExpansion : Prop :=
  ∀ s : State, s.CallInv → s.phase = .run →
    ∃ (i : Instr) (rest : List Instr), selected s = .next (some i) ∧ expansion (s.len - s.ic) = i :: rest ∧
      (∀ t, exec i s = .next t → t.phase = .run → expansion (t.len - t.ic) = rest) ∧
      (∀ t, exec i s = .next t → t.phase ≠ .run → rest = [])

/-! ### The pure functions: word parser, quintet extractor, tables, counts -/

/-- R121: the word of a full group, first byte most significant. -/
def Obligations.FullWordIsBigEndian : Prop :=
  ∀ b0 b1 b2 b3 : Byte,
    (parseWord [b0, b1, b2, b3]).toNat = b0.toNat * 16777216 + b1.toNat * 65536 + b2.toNat * 256 + b3.toNat

/-- R123: the word of a tail, left-justified with zero in the absent lanes. -/
def Obligations.TailWordIsLeftJustified : Prop :=
  ∀ b0 b1 b2 : Byte,
    (parseWord [b0]).toNat = b0.toNat * 16777216 ∧
    (parseWord [b0, b1]).toNat = b0.toNat * 16777216 + b1.toNat * 65536 ∧
    (parseWord [b0, b1, b2]).toNat = b0.toNat * 16777216 + b1.toNat * 65536 + b2.toNat * 256

/-- R124 (its second sentence is an inference the spec marks as its own): one formula for both forms, and the word of
a tail is that of the group padded with zero bytes. -/
def Obligations.WordByOneFormula : Prop :=
  ∀ bs : List Byte, 1 ≤ bs.length → bs.length ≤ 4 →
    (parseWord bs).toNat = wordSum bs ∧ parseWord bs = parseWord (bs ++ List.replicate (4 - bs.length) 0)

/-- R125 (an inference the spec marks as its own): the four lanes of a word give the bytes back, so the full form is a
bijection; the low bytes of a tail word are zero; and the largest tail words. -/
def Obligations.WordLanesGiveBytesBack : Prop :=
  (∀ b0 b1 b2 b3 : Byte,
    (parseWord [b0, b1, b2, b3]).extractLsb 31 24 = b0 ∧ (parseWord [b0, b1, b2, b3]).extractLsb 23 16 = b1 ∧
    (parseWord [b0, b1, b2, b3]).extractLsb 15 8 = b2 ∧ (parseWord [b0, b1, b2, b3]).extractLsb 7 0 = b3) ∧
  (∀ v : Word32, ∃ b0 b1 b2 b3 : Byte, parseWord [b0, b1, b2, b3] = v) ∧
  (∀ bs : List Byte, 1 ≤ bs.length → bs.length ≤ 3 →
    (parseWord bs).toNat % 2 ^ (8 * (4 - bs.length)) = 0 ∧
    (parseWord bs).toNat ≤ (parseWord (List.replicate bs.length 0xFF)).toNat) ∧
  parseWord [0xFF] = 0xFF000000 ∧ parseWord [0xFF, 0xFF] = 0xFFFF0000 ∧ parseWord [0xFF, 0xFF, 0xFF] = 0xFFFFFF00

/-- R131 to R136: the division chain with its four constants. -/
def Obligations.DigitsByDivisionChain : Prop :=
  ∀ v : Word32,
    rem1 v = v.toNat % 52200625 ∧ rem2 v = rem1 v % 614125 ∧ rem3 v = rem2 v % 7225 ∧
    (digit0 v).val = v.toNat / 52200625 ∧ (digit1 v).val = rem1 v / 614125 ∧ (digit2 v).val = rem2 v / 7225 ∧
    (digit3 v).val = rem3 v / 85 ∧ (digit4 v).val = rem3 v % 85

/-- R137 (an inference the spec marks as its own): the range of the first digit, and when it is 82. -/
def Obligations.FirstDigitAtMost82 : Prop :=
  ∀ v : Word32, (digit0 v).val ≤ 82 ∧ ((digit0 v).val = 82 ↔ 0xFF2280B2 ≤ v.toNat)

/-- R138 (an inference the spec marks as its own): the ranges of the remainders and of the other digits, and the
tighter ones when the first digit is 82. -/
def Obligations.RemaindersAndDigitsInRange : Prop :=
  ∀ v : Word32,
    rem1 v ≤ 52200624 ∧ rem1 v < 2 ^ 26 ∧ rem2 v ≤ 614124 ∧ rem2 v < 2 ^ 20 ∧ rem3 v ≤ 7224 ∧ rem3 v < 2 ^ 13 ∧
    (digit1 v).val ≤ 84 ∧ (digit2 v).val ≤ 84 ∧ (digit3 v).val ≤ 84 ∧ (digit4 v).val ≤ 84 ∧
    ((digit0 v).val = 82 → rem1 v ≤ 14516045 ∧ (digit1 v).val ≤ 23)

/-- R139 (an inference the spec marks as its own): the positional identity, the uniqueness of the digits, each digit
by its weight, and that distinct words have distinct quintets. -/
def Obligations.QuintetIsBase85Numeral : Prop :=
  (∀ v : Word32,
    v.toNat = (digit0 v).val * 52200625 + (digit1 v).val * 614125 + (digit2 v).val * 7225 + (digit3 v).val * 85 +
      (digit4 v).val ∧
    (∀ e0 e1 e2 e3 e4 : Nat, e1 ≤ 84 → e2 ≤ 84 → e3 ≤ 84 → e4 ≤ 84 →
      v.toNat = e0 * 52200625 + e1 * 614125 + e2 * 7225 + e3 * 85 + e4 →
      e0 = (digit0 v).val ∧ e1 = (digit1 v).val ∧ e2 = (digit2 v).val ∧ e3 = (digit3 v).val ∧ e4 = (digit4 v).val) ∧
    (digit0 v).val = v.toNat / 85 ^ 4 ∧ (digit1 v).val = v.toNat / 85 ^ 3 % 85 ∧
    (digit2 v).val = v.toNat / 85 ^ 2 % 85 ∧ (digit3 v).val = v.toNat / 85 % 85 ∧ (digit4 v).val = v.toNat % 85) ∧
  (∀ v w : Word32, digit0 v = digit0 w → digit1 v = digit1 w → digit2 v = digit2 w → digit3 v = digit3 w →
    digit4 v = digit4 w → v = w)

/-- R153 (an inference the spec marks as its own, from R151): Table A by formula. The codes are ASCII (log 6), and index
82 is the solidus as printed (log 7). -/
def Obligations.TableAByFormula : Prop :=
  ∀ d : Digit,
    (d.val ≤ 9 → (lutA d).toNat = 0x30 + d.val) ∧
    (10 ≤ d.val → d.val ≤ 35 → (lutA d).toNat = 0x41 + (d.val - 10)) ∧
    (36 ≤ d.val → d.val ≤ 61 → (lutA d).toNat = 0x61 + (d.val - 36)) ∧
    (62 ≤ d.val →
      [0x21, 0x23, 0x24, 0x25, 0x26, 0x28, 0x29, 0x2A, 0x2B, 0x2D, 0x3B, 0x3C, 0x3D, 0x3E, 0x3F, 0x40, 0x5E, 0x5F, 0x60,
        0x7B, 0x2F, 0x7D, 0x7E][d.val - 62]? = some (lutA d))

/-- R155, R156: each image of Table B equals Table A but in at most one slot, and at its divergent slot at least one of
the two holds the space, for every admitted configuration. -/
def Obligations.TableBAgreesAndHoldsSpace : Prop :=
  ∀ t : TableB,
    (∀ d, d ≠ t.sFull → lutBFull t d = lutA d) ∧ (∀ d, d ≠ t.sTail → lutBTail t d = lutA d) ∧
    (lutBFull t t.sFull = 0x20 ∨ lutBTail t t.sTail = 0x20)

/-- R157, R158: both images hold `'0'` at slot 0 (for the tail image this is the spec's decision D9, log 5); they differ
in at least one slot and, an inference the spec marks as its own, in at most two; every entry is the space or a
printable character, for every admitted configuration. -/
def Obligations.TableBZeroDistinctPrintable : Prop :=
  ∀ t : TableB,
    lutBFull t 0 = 0x30 ∧ lutBTail t 0 = 0x30 ∧
    (∃ d, lutBFull t d ≠ lutBTail t d) ∧
    (∃ p q, ∀ d, lutBFull t d ≠ lutBTail t d → d = p ∨ d = q) ∧
    (∀ d, 0x20 ≤ lutBFull t d ∧ lutBFull t d ≤ 0x7E ∧ 0x20 ≤ lutBTail t d ∧ lutBTail t d ≤ 0x7E)

/-- R187 (an inference the spec marks as its own): a tail of bytes `bs` against `bs` padded with zero bytes to a full
group: the digits it emits are those of the padded group; the characters are equal at position 1, and at a later
position unless its digit is a divergent slot. -/
def Obligations.TailAgreesWithPaddedGroup : Prop :=
  ∀ (t : TableB) (bs : List Byte) (p : Nat), 1 ≤ bs.length → bs.length ≤ 3 → p ≤ bs.length →
    let v := parseWord bs
    let w := parseWord (bs ++ List.replicate (4 - bs.length) 0)
    [digit0 v, digit1 v, digit2 v, digit3 v][p]? = [digit0 w, digit1 w, digit2 w, digit3 w][p]? ∧
    ∃ c d, (tailGroupChars t bs.length v)[p]? = some c ∧ (fullGroupChars t w)[p]? = some d ∧
      (p = 0 → c = d) ∧
      (∀ e : Digit, [digit0 v, digit1 v, digit2 v, digit3 v][p]? = some e → e ≠ t.sFull → e ≠ t.sTail → c = d)

/-- R185 (its second part is an inference the spec marks as its own): a tail of `r` bytes has exactly `r + 1`
characters, and different tails of `r` bytes differ in one of the digits that are emitted. -/
def Obligations.TailDigitsTellTailsApart : Prop :=
  ∀ r : Nat, 1 ≤ r → r ≤ 3 →
    (∀ (t : TableB) (v : Word32), (tailGroupChars t r v).length = r + 1) ∧
    (∀ x y : List Byte, x.length = r → y.length = r → x ≠ y →
      ∃ p, p ≤ r ∧
        [digit0 (parseWord x), digit1 (parseWord x), digit2 (parseWord x), digit3 (parseWord x)][p]? ≠
        [digit0 (parseWord y), digit1 (parseWord y), digit2 (parseWord y), digit3 (parseWord y)][p]?)

/-- R12: the two counting functions, and (an inference the spec marks as its own) when they agree. -/
def Obligations.CountWithinRequiredCapacity : Prop :=
  ∀ n : Nat,
    nOut n = n / 4 * 5 + (if n % 4 = 0 then 0 else n % 4 + 1) ∧ capReq n = (n + 3) / 4 * 5 ∧
    nOut n ≤ capReq n ∧ (nOut n = capReq n ↔ n % 4 = 0)

/-! ### The memory primitives -/

/-- R52, R54, R203, R110 (its last paragraph): a read is admitted below `LEN` and returns the cell's byte, with no effect
but the model's history, and is refused past it; a write is admitted only below `CAP`, and past it faults; below `CAP` it
stores its character, unless it is at or past `N_out(LEN)`, where the block may not write and it is refused. That the
fault comes before the refusal where an index is past both bounds is the model's choice (log 18). -/
def Obligations.MemoryPrimitivesAdmitted : Prop :=
  (∀ (s : State) (i : Nat) (b : Byte), i < s.len → s.inMem.read i = some b →
    memRead s i = .next (b, { s with accesses := s.accesses ++ [.read i b] })) ∧
  (∀ (s : State) (i : Nat), s.len ≤ i → memRead s i = .refused .readPastLength) ∧
  (∀ (s : State) (j : Nat) (c : Byte), j < s.cap → j < nOut s.len →
    ∃ t, memWrite s j c = .next t ∧ (∀ a, t.outMem.read a = if a = j then some c else s.outMem.read a) ∧
      t = { s with outMem := t.outMem, accesses := s.accesses ++ [.write j c] }) ∧
  (∀ (s : State) (j : Nat) (c : Byte), s.cap ≤ j → memWrite s j c = .fault .outputOverflow) ∧
  (∀ (s : State) (j : Nat) (c : Byte), j < s.cap → nOut s.len ≤ j → memWrite s j c = .refused .writePastCount)

/-! ### The operations: results, frames, where they stop -/

/-- R171: ENC.FULL completes in RUN with at least 4 bytes left, each there to be read, and room for 5 characters (in
`CAP`, and below `N_out(LEN)`: R110, which every state of a call meets). It writes Table A's character of `d0` and
`LUT_B_FULL`'s of `d1` to `d4`, advances the cursors by 4 and 5, makes 4 reads and then 5 writes in ascending order, and
changes nothing else. -/
def Obligations.FullGroupResult : Prop :=
  ∀ (s : State) (b0 b1 b2 b3 : Byte), s.phase = .run → s.ic + 4 ≤ s.len →
    s.inMem.read s.ic = some b0 → s.inMem.read (s.ic + 1) = some b1 → s.inMem.read (s.ic + 2) = some b2 →
    s.inMem.read (s.ic + 3) = some b3 → s.oc + 5 ≤ s.cap → s.oc + 5 ≤ nOut s.len →
    ∃ (d0 d1 d2 d3 d4 : Digit) (t : State),
      let v := b0.toNat * 16777216 + b1.toNat * 65536 + b2.toNat * 256 + b3.toNat
      let v1 := v % 52200625
      let v2 := v1 % 614125
      let v3 := v2 % 7225
      d0.val = v / 52200625 ∧ d1.val = v1 / 614125 ∧ d2.val = v2 / 7225 ∧ d3.val = v3 / 85 ∧ d4.val = v3 % 85 ∧
      exec .encFull s = .next t ∧ t.ic = s.ic + 4 ∧ t.oc = s.oc + 5 ∧
      (∀ a, t.outMem.read a =
        if a = s.oc then some (lutA d0)
        else if a = s.oc + 1 then some (lutBFull Config.tableB d1)
        else if a = s.oc + 2 then some (lutBFull Config.tableB d2)
        else if a = s.oc + 3 then some (lutBFull Config.tableB d3)
        else if a = s.oc + 4 then some (lutBFull Config.tableB d4)
        else s.outMem.read a) ∧
      t.accesses = s.accesses ++
        [.read s.ic b0, .read (s.ic + 1) b1, .read (s.ic + 2) b2, .read (s.ic + 3) b3] ++
        [.write s.oc (lutA d0), .write (s.oc + 1) (lutBFull Config.tableB d1),
          .write (s.oc + 2) (lutBFull Config.tableB d2), .write (s.oc + 3) (lutBFull Config.tableB d3),
          .write (s.oc + 4) (lutBFull Config.tableB d4)] ∧
      t = { s with ic := t.ic, oc := t.oc, outMem := t.outMem, accesses := t.accesses }

/-- R173 (the document's worked example), with R157: a full group of zero bytes completes and writes five characters
`'0'`, under every configuration; it is not shortened (R143). -/
def Obligations.ZeroGroupWritesFiveZeros : Prop :=
  ∀ s : State, s.phase = .run → s.ic + 4 ≤ s.len → (∀ k, k < 4 → s.inMem.read (s.ic + k) = some 0) →
    s.oc + 5 ≤ s.cap → s.oc + 5 ≤ nOut s.len →
    ∃ t, exec .encFull s = .next t ∧ t.oc = s.oc + 5 ∧ ∀ k, k < 5 → t.outMem.read (s.oc + k) = some 0x30

/-- R182: ENC.TAIL1 completes in RUN with exactly 1 byte left, there to be read, and room for 2 characters (in `CAP`,
and below `N_out(LEN)`: R110). It makes 1 read and 2 writes; its first digit is at most 81; a byte 00 gives two
characters `'0'`; nothing else changes. -/
def Obligations.OneByteTailResult : Prop :=
  ∀ (s : State) (b0 : Byte), s.phase = .run → s.ic + 1 = s.len → s.inMem.read s.ic = some b0 →
    s.oc + 2 ≤ s.cap → s.oc + 2 ≤ nOut s.len →
    ∃ (d0 d1 : Digit) (t : State),
      let v := b0.toNat * 16777216
      let v1 := v % 52200625
      d0.val = v / 52200625 ∧ d1.val = v1 / 614125 ∧ d0.val ≤ 81 ∧
      exec .encTail1 s = .next t ∧ t.ic = s.ic + 1 ∧ t.oc = s.oc + 2 ∧
      (∀ a, t.outMem.read a =
        if a = s.oc then some (lutA d0)
        else if a = s.oc + 1 then some (lutBTail Config.tableB d1)
        else s.outMem.read a) ∧
      (b0 = 0 → t.outMem.read s.oc = some 0x30 ∧ t.outMem.read (s.oc + 1) = some 0x30) ∧
      t.accesses = s.accesses ++ [.read s.ic b0] ++
        [.write s.oc (lutA d0), .write (s.oc + 1) (lutBTail Config.tableB d1)] ∧
      t = { s with ic := t.ic, oc := t.oc, outMem := t.outMem, accesses := t.accesses }

/-- R183: ENC.TAIL2 completes in RUN with exactly 2 bytes left, there to be read, and room for 3 characters (in `CAP`,
and below `N_out(LEN)`: R110). It makes 2 reads and 3 writes; bytes 00 00 give three characters `'0'`, and FF FF the
first digit 82; nothing else changes. -/
def Obligations.TwoByteTailResult : Prop :=
  ∀ (s : State) (b0 b1 : Byte), s.phase = .run → s.ic + 2 = s.len → s.inMem.read s.ic = some b0 →
    s.inMem.read (s.ic + 1) = some b1 → s.oc + 3 ≤ s.cap → s.oc + 3 ≤ nOut s.len →
    ∃ (d0 d1 d2 : Digit) (t : State),
      let v := b0.toNat * 16777216 + b1.toNat * 65536
      let v1 := v % 52200625
      let v2 := v1 % 614125
      d0.val = v / 52200625 ∧ d1.val = v1 / 614125 ∧ d2.val = v2 / 7225 ∧
      (b0 = 0xFF → b1 = 0xFF → d0.val = 82 ∧ d1.val = 23 ∧ d2.val = 45) ∧
      exec .encTail2 s = .next t ∧ t.ic = s.ic + 2 ∧ t.oc = s.oc + 3 ∧
      (∀ a, t.outMem.read a =
        if a = s.oc then some (lutA d0)
        else if a = s.oc + 1 then some (lutBTail Config.tableB d1)
        else if a = s.oc + 2 then some (lutBTail Config.tableB d2)
        else s.outMem.read a) ∧
      (b0 = 0 → b1 = 0 → ∀ k, k < 3 → t.outMem.read (s.oc + k) = some 0x30) ∧
      t.accesses = s.accesses ++ [.read s.ic b0, .read (s.ic + 1) b1] ++
        [.write s.oc (lutA d0), .write (s.oc + 1) (lutBTail Config.tableB d1),
          .write (s.oc + 2) (lutBTail Config.tableB d2)] ∧
      t = { s with ic := t.ic, oc := t.oc, outMem := t.outMem, accesses := t.accesses }

/-- R184: ENC.TAIL3 completes in RUN with exactly 3 bytes left, there to be read, and room for 4 characters (in `CAP`,
and below `N_out(LEN)`: R110). It makes 3 reads and 4 writes, the fourth character through `LUT_B_TAIL`; bytes 00 00
00 give four characters `'0'`, and FF FF FF the first digit 82; nothing else changes. -/
def Obligations.ThreeByteTailResult : Prop :=
  ∀ (s : State) (b0 b1 b2 : Byte), s.phase = .run → s.ic + 3 = s.len → s.inMem.read s.ic = some b0 →
    s.inMem.read (s.ic + 1) = some b1 → s.inMem.read (s.ic + 2) = some b2 →
    s.oc + 4 ≤ s.cap → s.oc + 4 ≤ nOut s.len →
    ∃ (d0 d1 d2 d3 : Digit) (t : State),
      let v := b0.toNat * 16777216 + b1.toNat * 65536 + b2.toNat * 256
      let v1 := v % 52200625
      let v2 := v1 % 614125
      let v3 := v2 % 7225
      d0.val = v / 52200625 ∧ d1.val = v1 / 614125 ∧ d2.val = v2 / 7225 ∧ d3.val = v3 / 85 ∧
      (b0 = 0xFF → b1 = 0xFF → b2 = 0xFF → d0.val = 82 ∧ d1.val = 23 ∧ d2.val = 54 ∧ d3.val = 9) ∧
      exec .encTail3 s = .next t ∧ t.ic = s.ic + 3 ∧ t.oc = s.oc + 4 ∧
      (∀ a, t.outMem.read a =
        if a = s.oc then some (lutA d0)
        else if a = s.oc + 1 then some (lutBTail Config.tableB d1)
        else if a = s.oc + 2 then some (lutBTail Config.tableB d2)
        else if a = s.oc + 3 then some (lutBTail Config.tableB d3)
        else s.outMem.read a) ∧
      (b0 = 0 → b1 = 0 → b2 = 0 → ∀ k, k < 4 → t.outMem.read (s.oc + k) = some 0x30) ∧
      t.accesses = s.accesses ++ [.read s.ic b0, .read (s.ic + 1) b1, .read (s.ic + 2) b2] ++
        [.write s.oc (lutA d0), .write (s.oc + 1) (lutBTail Config.tableB d1),
          .write (s.oc + 2) (lutBTail Config.tableB d2), .write (s.oc + 3) (lutBTail Config.tableB d3)] ∧
      t = { s with ic := t.ic, oc := t.oc, outMem := t.outMem, accesses := t.accesses }

/-- R105: ENC.FINISH completes in RUN with no byte left: `CNT` takes `OC`, `PHASE` becomes DONE, nothing else changes,
no memory is accessed, and the call has no further step; it is the only operation that writes `CNT` or leaves RUN; it is
the only step of a call of no byte, and comes exactly once in the sequence of every call (which a call follows:
`CallFollowsExpansion`). -/
def Obligations.FinishResult : Prop :=
  (∀ s : State, s.phase = .run → s.ic = s.len →
    exec .encFinish s = .next { s with cnt := s.oc, phase := .done } ∧
    selected { s with cnt := s.oc, phase := .done } = .next none) ∧
  (∀ (i : Instr) (s t : State), exec i s = .next t → i ≠ .encFinish → t.cnt = s.cnt ∧ t.phase = .run) ∧
  expansion 0 = [.encFinish] ∧ (∀ n, (expansion n).count .encFinish = 1)

/-- The frame of the four group operations (R172 for ENC.FULL; R181): every register but `IC` and `OC`, all of `IN`, the
launch parameters and the model's agenda and draw counter are unchanged, the history only grows, and every cell of
`OUT` outside the stored ones (5, 2, 3 or 4 of them from `OC` on) reads as before. -/
def Obligations.GroupOperationsFrame : Prop :=
  ∀ (s t : State) (i : Instr) (n m : Nat),
    (i, n, m) ∈ [(Instr.encFull, 4, 5), (.encTail1, 1, 2), (.encTail2, 2, 3), (.encTail3, 3, 4)] →
    exec i s = .next t →
    t.ic = s.ic + n ∧ t.oc = s.oc + m ∧
    t.phase = s.phase ∧ t.len = s.len ∧ t.cnt = s.cnt ∧ t.inMem = s.inMem ∧ t.cap = s.cap ∧ t.inBase = s.inBase ∧
    t.outBase = s.outBase ∧ t.agenda = s.agenda ∧ t.draws = s.draws ∧
    (∃ l, l.length = n + m ∧ t.accesses = s.accesses ++ l) ∧
    (∀ a, a < s.oc ∨ s.oc + m ≤ a → t.outMem.read a = s.outMem.read a)

/-- The frame of ENC.FINISH (R105): every register but `CNT` and `PHASE`, both memories, the launch parameters and the
model's fields are unchanged. -/
def Obligations.FinishFrame : Prop :=
  ∀ s t : State, exec .encFinish s = .next t →
    t.len = s.len ∧ t.ic = s.ic ∧ t.oc = s.oc ∧ t.inMem = s.inMem ∧ t.cap = s.cap ∧ t.inBase = s.inBase ∧
    t.outBase = s.outBase ∧ t.agenda = s.agenda ∧ t.accesses = s.accesses ∧ t.draws = s.draws ∧
    (∀ a, t.outMem.read a = s.outMem.read a)

/-- R172 (an inference the spec marks as its own): what one ENC.FULL changes: five cells of `OUT` at `OC .. OC+4` and
the two cursors; `RB` falls by 4, so `SEL[1:0]` does not change, and `SEL[2]` is 1 before; and `OC = 5 * (IC div 4)`
is kept. -/
def Obligations.FullGroupChanges : Prop :=
  ∀ s t : State, exec .encFull s = .next t →
    (∀ a, t.outMem.read a ≠ s.outMem.read a → s.oc ≤ a ∧ a < s.oc + 5) ∧
    t = { s with ic := s.ic + 4, oc := s.oc + 5, outMem := t.outMem, accesses := t.accesses } ∧
    t.bytesLeft + 4 = s.bytesLeft ∧ t.sel.extractLsb 1 0 = s.sel.extractLsb 1 0 ∧ s.sel.getLsbD 2 = true ∧
    (s.oc = 5 * (s.ic / 4) → t.oc = 5 * (t.ic / 4))

/-- R10, with the `require` lines of R105, R171, R182, R183 and R184: an operation whose guard is false is refused. -/
def Obligations.FalseGuardIsRefused : Prop :=
  ∀ s : State,
    (¬ (s.phase = .run ∧ s.ic + 4 ≤ s.len) → exec .encFull s = .refused .notEnabled) ∧
    (¬ (s.phase = .run ∧ s.ic + 1 = s.len) → exec .encTail1 s = .refused .notEnabled) ∧
    (¬ (s.phase = .run ∧ s.ic + 2 = s.len) → exec .encTail2 s = .refused .notEnabled) ∧
    (¬ (s.phase = .run ∧ s.ic + 3 = s.len) → exec .encTail3 s = .refused .notEnabled) ∧
    (¬ (s.phase = .run ∧ s.ic = s.len) → exec .encFinish s = .refused .notEnabled)

/-- R203: a model that meets a write at or past `CAP` faults: a group operation that is enabled, whose bytes are there
to be read, but that has no room for all its characters, faults and leaves no state (where `CAP` is the bound it meets
first; else `WritePastCountIsRefused` says how it stops). -/
def Obligations.OutputOverflowFaults : Prop :=
  ∀ (s : State) (i : Instr) (n m : Nat),
    (i, n, m) ∈ [(Instr.encFull, 4, 5), (.encTail1, 1, 2), (.encTail2, 2, 3), (.encTail3, 3, 4)] →
    s.phase = .run → (if i = .encFull then s.ic + n ≤ s.len else s.ic + n = s.len) →
    (∀ k, k < n → (s.inMem.read (s.ic + k)).isSome = true) → s.cap < s.oc + m →
    s.cap ≤ nOut s.len ∨ s.cap ≤ s.oc → exec i s = .fault .outputOverflow

/-- The model's choice (log 4), where the spec has no case (R38: `IN` holds its `LEN` bytes): a group operation that is
enabled but whose bytes are not all known faults, before anything is written. -/
def Obligations.UnknownInputByteFaults : Prop :=
  ∀ (s : State) (i : Instr) (n : Nat),
    (i, n) ∈ [(Instr.encFull, 4), (.encTail1, 1), (.encTail2, 2), (.encTail3, 3)] →
    s.phase = .run → (if i = .encFull then s.ic + n ≤ s.len else s.ic + n = s.len) →
    (∃ k, k < n ∧ s.inMem.read (s.ic + k) = none) → exec i s = .fault .unwrittenInput

/-! ### The host's moves -/

/-- R101, R111: START, for every register width `w` and address width `aw`, from IDLE or DONE under the launch premises:
`LEN` takes `len`, both cursors 0, `PHASE` RUN, `CNT` is not written and is no longer readable; the first step is the one
its length selects (with `len = 0` it is ENC.FINISH); the launch memory is in place; under a broken premise it is refused.
A START on the agenda is such a START with this implementation's widths. Three clauses are the model's choice: the input
bytes must be handed over (log 13), the buffers must have addresses (log 20), and the launch memory is all that `IN` and
`OUT` then hold, earlier contents being dropped (log 30). -/
def Obligations.StartBeginsCall : Prop :=
  (∀ (w : Width) (aw : Nat) (s : State) (l : Launch), s.phase = .idle ∨ s.phase = .done →
    (capReq l.len ≤ l.cap ∧ fitsWidth w (nOut l.len) = true ∧
        disjointSpans l.inBase l.len l.outBase l.cap = true →
      spanFits aw l.inBase l.len = true → spanFits aw l.outBase l.cap = true → l.len ≤ l.input.length →
      ∃ t, startWith w aw l s = .next t ∧ t.len = l.len ∧ t.ic = 0 ∧ t.oc = 0 ∧ t.phase = .run ∧ t.cnt = s.cnt ∧
        readCount t = .fault .countUnreadable ∧ selected t = .next (some (decode (selectorOf l.len))) ∧
        (l.len = 0 → selected t = .next (some .encFinish)) ∧ t.cap = l.cap ∧ t.inBase = l.inBase ∧ t.outBase = l.outBase ∧
        (∀ i, i < l.len → t.inMem.read i = l.input[i]?) ∧ (∀ i, l.len ≤ i → t.inMem.read i = none) ∧
        (∀ j, j < l.cap → t.outMem.read j = l.output[j]?) ∧ t.agenda = s.agenda) ∧
    (¬ (capReq l.len ≤ l.cap ∧ fitsWidth w (nOut l.len) = true ∧
        disjointSpans l.inBase l.len l.outBase l.cap = true) →
      ∃ r, startWith w aw l s = .refused r)) ∧
  (∀ (s : State) (l : Launch) (ts : List Turn), s.agenda = .host (.start l) :: ts →
    step s = startWith Config.lengthWidth Config.addressWidth l (s.withAgenda ts))

/-- R102, R203, R204, R205: which refusal a START meets: in RUN, without the capacity, with a count that does not fit,
with overlapping buffers, with a cell that has no address, without its input bytes. The order of the checks (log 14) and
the last two refusals (logs 20, 13) are the model's choice. -/
def Obligations.StartRefusals : Prop :=
  ∀ (w : Width) (aw : Nat) (s : State) (l : Launch),
    (s.phase = .run → startWith w aw l s = .refused .startDuringRun) ∧
    (s.phase ≠ .run → l.cap < capReq l.len → startWith w aw l s = .refused .capacityPremise) ∧
    (s.phase ≠ .run → capReq l.len ≤ l.cap → fitsWidth w (nOut l.len) = false →
      startWith w aw l s = .refused .countWidth) ∧
    (s.phase ≠ .run → capReq l.len ≤ l.cap → fitsWidth w (nOut l.len) = true →
      (∃ i j, i < l.len ∧ j < l.cap ∧ l.inBase + i = l.outBase + j) → startWith w aw l s = .refused .aliasPremise) ∧
    (s.phase ≠ .run → capReq l.len ≤ l.cap → fitsWidth w (nOut l.len) = true →
      disjointSpans l.inBase l.len l.outBase l.cap = true →
      (2 ^ aw ≤ l.inBase ∨ 2 ^ aw ≤ l.outBase ∨ (∃ i, i < l.len ∧ 2 ^ aw ≤ l.inBase + i) ∨
        (∃ j, j < l.cap ∧ 2 ^ aw ≤ l.outBase + j)) → startWith w aw l s = .refused .addressWidth) ∧
    (s.phase ≠ .run → capReq l.len ≤ l.cap → fitsWidth w (nOut l.len) = true →
      disjointSpans l.inBase l.len l.outBase l.cap = true →
      spanFits aw l.inBase l.len = true → spanFits aw l.outBase l.cap = true → l.input.length < l.len →
      startWith w aw l s = .refused .inputPremise)

/-- R204: the width premise: with `LW` bits a count fits exactly when it is below `2^LW`; an unbounded width takes
all. -/
def Obligations.CountFitsItsWidth : Prop :=
  ∀ n : Nat, fitsWidth .unbounded n = true ∧
    ∀ (w : Nat) (hw : 0 < w), (fitsWidth (.bits w hw) n = true ↔ n < 2 ^ w)

/-- R107: in DONE the host reads `CNT`, and reading changes nothing; outside DONE the read faults; and `PHASE`, `CNT`,
`LEN`, `IC` and `OC` keep their values in DONE until the next START or RESET. -/
def Obligations.ResultStaysReadable : Prop :=
  (∀ s : State, s.phase = .done → readCount s = .next s.cnt) ∧
  (∀ (s : State) (j : Nat) (c : Byte), s.phase = .done → j < s.cap → s.outMem.read j = some c →
    hostReadOut j s = .next c) ∧
  (∀ s : State, s.phase ≠ .done → readCount s = .fault .countUnreadable) ∧
  (∀ (s : State) (ts : List Turn), s.phase = .done → s.agenda = .host .result :: ts →
    step s = .next (s.withAgenda ts)) ∧
  (∀ (s t : State) (j : Nat) (ts : List Turn), s.phase = .done → s.agenda = .host (.readOut j) :: ts →
    step s = .next t → t = s.withAgenda ts) ∧
  (∀ s t : State, s.phase = .done → step s = .next t → s.nextMove ≠ some .reset →
    (∀ l, s.nextMove ≠ some (.start l)) →
    t.phase = .done ∧ t.cnt = s.cnt ∧ t.len = s.len ∧ t.ic = s.ic ∧ t.oc = s.oc)

/-- R220, R221: RESET, in any phase: `PHASE` becomes IDLE; `IN` is not touched; `OUT` is not touched outside RUN, and in
RUN every cell at or above `N_out(LEN)` reads as before (of the cells below nothing is claimed, log 11). R202: a RESET
that coincides with a step of the encoder or with a START wins: the step is that of the RESET alone. Two clauses are the
model's choice: `CAP` and the bases keep their values (log 12), and nothing of a coinciding START's launch is taken over,
neither its `CAP` and bases nor its buffers (log 27). -/
def Obligations.ResetEndsCall : Prop :=
  (∀ (s : State) (u : Turn) (ts : List Turn), s.agenda = u :: ts → (u = .host .reset ∨ ∃ r, u = .resetWith r) →
    ∃ t, step s = .next t ∧ t.phase = .idle ∧ t.inMem = s.inMem ∧ t.agenda = ts ∧
      t.cap = s.cap ∧ t.inBase = s.inBase ∧ t.outBase = s.outBase ∧
      (s.phase ≠ .run → ∀ j, t.outMem.read j = s.outMem.read j) ∧
      (∀ j, nOut s.len ≤ j → t.outMem.read j = s.outMem.read j)) ∧
  (∀ (s : State) (r : Rival) (ts : List Turn),
    step (s.withAgenda (.resetWith r :: ts)) = step (s.withAgenda (.host .reset :: ts)))

/-- R226 to R228: during RUN the host has no access to `IN` or `OUT` (the model refuses it by name). -/
def Obligations.BuffersClosedDuringRun : Prop :=
  ∀ (s : State) (ts : List Turn) (i : Nat) (b : Byte), s.phase = .run →
    (s.agenda = .host (.writeIn i b) :: ts → step s = .refused .bufferBusy) ∧
    (s.agenda = .host (.writeOut i b) :: ts → step s = .refused .bufferBusy) ∧
    (s.agenda = .host (.readIn i) :: ts → step s = .refused .bufferBusy) ∧
    (s.agenda = .host (.readOut i) :: ts → step s = .refused .bufferBusy)

/-- R42: outside RUN the host writes a cell that a buffer has, reads it back, and changes nothing else. -/
def Obligations.HostWritesBuffersOutsideRun : Prop :=
  ∀ (s : State) (ts : List Turn) (a : Nat) (b : Byte), s.phase ≠ .run →
    (s.agenda = .host (.writeIn a b) :: ts → (s.inMem.read a).isSome = true →
      ∃ t, step s = .next t ∧ hostReadIn a t = .next b ∧ (∀ k, k ≠ a → t.inMem.read k = s.inMem.read k) ∧
        t = { s with inMem := t.inMem, agenda := ts }) ∧
    (s.agenda = .host (.writeOut a b) :: ts → a < s.cap →
      ∃ t, step s = .next t ∧ hostReadOut a t = .next b ∧ (∀ k, k ≠ a → t.outMem.read k = s.outMem.read k) ∧
        t = { s with outMem := t.outMem, agenda := ts })

/-! ### Whole-machine rules -/

/-- R43: the state after reset is IDLE, with no cell known in either memory, and no operation enabled. -/
def Obligations.ResetState : Prop :=
  State.reset.phase = .idle ∧ (∀ a, State.reset.inMem.read a = none ∧ State.reset.outMem.read a = none) ∧
  step State.reset = .next State.reset ∧ readCount State.reset = .fault .countUnreadable

/-- R22: the 2-bit codes of `PHASE`, and all that can change it: RESET to IDLE, START to RUN (not from RUN), and
ENC.FINISH, by a step of the encoder with no byte left, from RUN to DONE. -/
def Obligations.PhaseTransitions : Prop :=
  Phase.code .idle = 0 ∧ Phase.code .run = 1 ∧ Phase.code .done = 2 ∧
  ∀ s t : State, step s = .next t → t.phase ≠ s.phase →
    (t.phase = .idle ∧ s.nextMove = some .reset) ∨
    (t.phase = .run ∧ s.phase ≠ .run ∧ ∃ l, s.nextMove = some (.start l)) ∨
    (t.phase = .done ∧ s.phase = .run ∧ s.ic = s.len ∧ s.nextMove = none)

/-- R23, R24, R25, R27: who writes the registers: outside RESET and START, `LEN` is never written, `IC` and `OC` only
by a step of the encoder in RUN with bytes left, and `CNT` only by one with none left, from `OC`. -/
def Obligations.RegisterWriters : Prop :=
  ∀ s t : State, step s = .next t → s.nextMove ≠ some .reset →
    (∀ l, s.nextMove ≠ some (.start l)) →
    t.len = s.len ∧
    (t.ic ≠ s.ic ∨ t.oc ≠ s.oc →
      s.phase = .run ∧ s.ic < s.len ∧ s.nextMove = none) ∧
    (t.cnt ≠ s.cnt → t.cnt = s.oc ∧ s.phase = .run ∧ s.ic = s.len ∧ t.phase = .done)

/-- The invariants below hold at reset. -/
def Obligations.InvariantsAtReset : Prop :=
  State.reset.CallInv ∧ State.reset.BufferInv ∧ (∀ w aw, State.reset.LaunchInv w aw) ∧ State.reset.MemoryInv ∧
  State.reset.AccessInv

/-- R29 (an inference the spec marks as its own): every step keeps the invariant of a call, whoever takes it. -/
def Obligations.CallInvariantKept : Prop :=
  ∀ s t : State, s.CallInv → step s = .next t → t.CallInv

/-- R111: every step keeps the launch premises of the running call: its buffers (`P_CAP`, and the bytes of `IN`), and
`P_FIT` and `P_DISJOINT`, and the addresses of its cells (log 20). -/
def Obligations.LaunchPremisesKept : Prop :=
  ∀ s t : State, step s = .next t →
    (s.BufferInv → t.BufferInv) ∧
    (s.LaunchInv Config.lengthWidth Config.addressWidth → t.LaunchInv Config.lengthWidth Config.addressWidth)

/-- Every step keeps both memories in canonical form. -/
def Obligations.MemoryFormKept : Prop :=
  ∀ s t : State, s.MemoryInv → step s = .next t → t.MemoryInv

/-- R65, with R53 and R55 (inferences the spec marks as its own; the history is the model's, log 21): every step keeps
the order of a call's accesses: group by group, reads before writes, each index once, ascending. With `IC = LEN` (in
DONE) they are all the accesses of the call: `IN[0..LEN-1]` read and `OUT[0..N_out(LEN)-1]` written. -/
def Obligations.AccessOrderKept : Prop :=
  ∀ s t : State, s.CallInv → s.AccessInv → step s = .next t → t.AccessInv

/-- R53, R55 (inferences the spec marks as its own): the accesses that a call of `n` bytes calls for read every index
below `n` once, in order, and no other, and write every index below `N_out(n)` once, in order, and no other; and so do
those that a finished call has made. -/
def Obligations.CallTouchesEachCellOnce : Prop :=
  (∀ n : Nat,
    (callTouches n).filterMap (fun c => match c with | .read i => some i | .write _ => none) = List.range n ∧
    (callTouches n).filterMap (fun c => match c with | .write j => some j | .read _ => none) = List.range (nOut n)) ∧
  (∀ s : State, s.CallInv → s.AccessInv → s.phase = .done →
    s.accesses.filterMap (fun c => match c with | .read i _ => some i | .write _ _ => none) = List.range s.len ∧
    s.accesses.filterMap (fun c => match c with | .write j _ => some j | .read _ _ => none) = List.range (nOut s.len))

/-- R216, R232: a running call is never stuck: under its invariants the encoder's step answers a next state, in which
fewer bytes are left or the call is done. -/
def Obligations.RunningCallProgresses : Prop :=
  ∀ s : State, s.CallInv → s.BufferInv → s.phase = .run → s.agenda = [] →
    ∃ t, step s = .next t ∧
      ((t.phase = .run ∧ t.bytesLeft < s.bytesLeft) ∨ (t.phase = .done ∧ s.bytesLeft = 0))

/-- R104, R106 (inferences the spec marks as its own) and R112: with the encoder alone to move, a running call is DONE
after exactly the steps that the rule counts, and not before, with `CNT = N_out(LEN)`. -/
def Obligations.CallReachesDone : Prop :=
  ∀ s : State, s.CallInv → s.BufferInv → s.phase = .run → s.agenda = [] →
    (∃ t, runSteps s.stepsLeft s = .next t ∧ t.phase = .done ∧ t.len = s.len ∧ t.cnt = nOut s.len) ∧
    (∀ k, k < s.stepsLeft → ∃ t : State, runSteps k s = .next t ∧ t.phase = .run)

/-- R100, R112, and R57 (an inference the spec marks as its own): a call that has just started ends with the text of
its input in `OUT[0..CNT-1]`, every other cell of `OUT` as at START, and `IN` unchanged. -/
def Obligations.CallWritesItsText : Prop :=
  ∀ s : State, s.BufferInv → s.phase = .run → s.ic = 0 → s.oc = 0 → s.agenda = [] →
    ∃ t : State, runSteps s.stepsLeft s = .next t ∧ t.phase = .done ∧ t.cnt = nOut s.len ∧
      t.inMem = s.inMem ∧
      ∀ j, t.outMem.read j =
        if j < nOut s.len then (encodeText Config.tableB s.inputText)[j]? else s.outMem.read j

/-- R106 (an inference the spec marks as its own): the length of the text of an input is `N_out` of its length. -/
def Obligations.TextLengthIsCount : Prop :=
  ∀ (t : TableB) (bs : List Byte), (encodeText t bs).length = nOut bs.length

/-- R164 (an inference the spec marks as its own): the undiverged string: it has the length of the text; it equals the
text at position 1 of every group; and at a later position the text differs from it only for a digit that is the
divergent slot of the image used, where it holds that image's stored code. (Table A has no character twice, so a
character of the undiverged string tells its digit.) -/
def Obligations.TextAgainstUndivergedText : Prop :=
  ∀ (t : TableB) (bs : List Byte),
    (undivergedText bs).length = (encodeText t bs).length ∧
    ∀ (j : Nat) (c : Byte), (undivergedText bs)[j]? = some c →
      (j % 5 = 0 → (encodeText t bs)[j]? = some c) ∧
      (j % 5 ≠ 0 → j < 5 * (bs.length / 4) →
        (encodeText t bs)[j]? = some (if c = lutA t.sFull then t.cFull else c)) ∧
      (j % 5 ≠ 0 → 5 * (bs.length / 4) ≤ j →
        (encodeText t bs)[j]? = some (if c = lutA t.sTail then t.cTail else c))

/-- R113 (an inference the spec marks as its own): locality: the text of `X ++ Y`, with the length of `X` a multiple
of 4, is that of `X` followed by that of `Y`. -/
def Obligations.TextOfConcatenation : Prop :=
  ∀ (t : TableB) (x y : List Byte), x.length % 4 = 0 → encodeText t (x ++ y) = encodeText t x ++ encodeText t y

/-- R113, R222 (inferences the spec marks as its own): two calls just started with the same length and the same input
bytes both reach DONE, with the same count and the same characters, whatever else their states hold. -/
def Obligations.ResultDependsOnInputOnly : Prop :=
  ∀ s s' : State, s.BufferInv → s'.BufferInv → s.phase = .run → s'.phase = .run → s.ic = 0 → s.oc = 0 → s'.ic = 0 →
    s'.oc = 0 → s.agenda = [] → s'.agenda = [] → s.len = s'.len →
    (∀ i, i < s.len → s.inMem.read i = s'.inMem.read i) →
    ∃ t t' : State, runSteps s.stepsLeft s = .next t ∧ runSteps s'.stepsLeft s' = .next t' ∧
      t.phase = .done ∧ t'.phase = .done ∧ t.cnt = t'.cnt ∧ ∀ j, j < t.cnt → t.outMem.read j = t'.outMem.read j

/-- R110, its last paragraph: a group operation that is enabled, whose bytes are there to be read, but one of whose
characters would go to an index of `OUT` at or past `N_out(LEN)`, inside `CAP`, is refused. (No state of a call comes to
this: `CallInvariantKept`.) -/
def Obligations.WritePastCountIsRefused : Prop :=
  ∀ (s : State) (i : Instr) (n m : Nat),
    (i, n, m) ∈ [(Instr.encFull, 4, 5), (.encTail1, 1, 2), (.encTail2, 2, 3), (.encTail3, 3, 4)] →
    s.phase = .run → (if i = .encFull then s.ic + n ≤ s.len else s.ic + n = s.len) →
    (∀ k, k < n → (s.inMem.read (s.ic + k)).isSome = true) → nOut s.len < s.oc + m →
    nOut s.len < s.cap → s.oc < s.cap → exec i s = .refused .writePastCount
end

