-- ==== Sys2Proof/Laws/Memory.lean ====
section
/-!
SUPPORT. The laws of a memory: a read after a write, and that every operation over memories keeps the canonical form.
-/

namespace Sys2Proof.Machine

@[simp] theorem Memory.read_nil (a : Nat) : Memory.read [] a = none := rfl

theorem Memory.read_write (m : Memory) (a b : Nat) (v : Byte) :
    Memory.read (Memory.write m a v) b = if b = a then some v else Memory.read m b := by
  induction m with
  | nil => by_cases h : b = a <;> simp [Memory.write, Memory.read, h, Memory.unlisted]
  | cons c m ih =>
    obtain ⟨k, w⟩ := c
    simp only [Memory.write]
    by_cases h1 : a < k
    · rw [if_pos h1, Memory.read]
    · by_cases h2 : a = k
      · subst h2
        by_cases h3 : b = a <;> simp [Memory.read, h3]
      · rw [if_neg h1, if_neg h2, Memory.read, ih, Memory.read]
        by_cases h3 : b = k
        · rw [if_pos h3, if_pos h3, if_neg (by omega)]
        · rw [if_neg h3, if_neg h3]

@[simp] theorem Memory.read_write_same (m : Memory) (a : Nat) (v : Byte) :
    Memory.read (Memory.write m a v) a = some v := by simp [Memory.read_write]

theorem Memory.read_write_other (m : Memory) {a b : Nat} (v : Byte) (h : b ≠ a) :
    Memory.read (Memory.write m a v) b = Memory.read m b := by simp [Memory.read_write, h]

theorem Memory.wf_iff (m : Memory) : Memory.wf m = true ↔ Memory.risingFrom 0 m = true := by
  simp [Memory.wf, Memory.unlisted]

theorem Memory.risingFrom_write (m : Memory) (lo a : Nat) (v : Byte) (hlo : lo ≤ a)
    (h : Memory.risingFrom lo m = true) : Memory.risingFrom lo (Memory.write m a v) = true := by
  induction m generalizing lo with
  | nil => simp [Memory.write, Memory.risingFrom, hlo]
  | cons c m ih =>
    obtain ⟨k, w⟩ := c
    simp only [Memory.risingFrom, Bool.and_eq_true, decide_eq_true_eq] at h
    simp only [Memory.write]
    split_ifs with h1 h2
    · simp [Memory.risingFrom, hlo, h.2, h1]
    · simp [Memory.risingFrom, h2, h.1, h.2]
    · simp [Memory.risingFrom, h.1, ih (k + 1) (by omega) h.2]

theorem Memory.wf_write (m : Memory) (a : Nat) (v : Byte) (h : Memory.wf m = true) :
    Memory.wf (Memory.write m a v) = true := by
  rw [Memory.wf_iff] at *
  exact Memory.risingFrom_write m 0 a v (Nat.zero_le a) h

theorem Memory.risingFrom_ofBytesFrom (k lo : Nat) (bs : List Byte) (h : lo ≤ k) :
    Memory.risingFrom lo (Memory.ofBytesFrom k bs) = true := by
  induction bs generalizing k lo with
  | nil => rfl
  | cons b bs ih => simp [Memory.ofBytesFrom, Memory.risingFrom, h, ih (k + 1) (k + 1) (Nat.le_refl _)]

theorem Memory.wf_ofBytes (bs : List Byte) : Memory.wf (Memory.ofBytes bs) = true :=
  (Memory.wf_iff _).2 (Memory.risingFrom_ofBytesFrom 0 0 bs (Nat.le_refl 0))

theorem Memory.read_ofBytesFrom (k a : Nat) (bs : List Byte) :
    Memory.read (Memory.ofBytesFrom k bs) a = if k ≤ a then bs[a - k]? else none := by
  induction bs generalizing k with
  | nil => simp [Memory.ofBytesFrom]
  | cons b bs ih =>
    simp only [Memory.ofBytesFrom, Memory.read]
    by_cases h : a = k
    · simp [h]
    · rw [if_neg h, ih]
      by_cases h2 : k ≤ a
      · have h3 : a - k = (a - (k + 1)) + 1 := by omega
        rw [if_pos (by omega), if_pos h2, h3, List.getElem?_cons_succ]
      · rw [if_neg (by omega), if_neg h2]

@[simp] theorem Memory.read_ofBytes (a : Nat) (bs : List Byte) :
    Memory.read (Memory.ofBytes bs) a = bs[a]? := by
  simp [Memory.ofBytes, Memory.read_ofBytesFrom]

theorem wf_fillFree (n d : Nat) (m : Memory) (h : Memory.wf m = true) :
    Memory.wf (fillFree n d m) = true := by
  induction n with
  | zero => exact h
  | succ n ih => exact Memory.wf_write _ _ _ ih

theorem read_fillFree (n d : Nat) (m : Memory) (a : Nat) :
    Memory.read (fillFree n d m) a = if a < n then some (Config.freeByte (d + a)) else Memory.read m a := by
  induction n with
  | zero => simp [fillFree]
  | succ n ih =>
    rw [fillFree, Memory.read_write, ih]
    by_cases h : a = n
    · subst h; simp
    · by_cases h2 : a < n
      · rw [if_neg h, if_pos h2, if_pos (by omega)]
      · rw [if_neg h, if_neg h2, if_neg (by omega)]

/-- The memory of the machine after reset is in canonical form. -/
theorem State.reset_memoryWf :
    Memory.wf State.reset.inMem = true ∧ Memory.wf State.reset.outMem = true := ⟨rfl, rfl⟩

end Sys2Proof.Machine
end

