-- ==== Sys2Proof/Laws/State.lean ====
section
/-!
SUPPORT. Beside State: one lemma per field per update, true by rfl, so that no later proof unfolds a record update.
-/

namespace Sys2Proof.Machine

@[simp] theorem State.note_phase (s : State) (a : Access) : (s.note a).phase = s.phase := rfl
@[simp] theorem State.note_len (s : State) (a : Access) : (s.note a).len = s.len := rfl
@[simp] theorem State.note_ic (s : State) (a : Access) : (s.note a).ic = s.ic := rfl
@[simp] theorem State.note_oc (s : State) (a : Access) : (s.note a).oc = s.oc := rfl
@[simp] theorem State.note_cnt (s : State) (a : Access) : (s.note a).cnt = s.cnt := rfl
@[simp] theorem State.note_inMem (s : State) (a : Access) : (s.note a).inMem = s.inMem := rfl
@[simp] theorem State.note_outMem (s : State) (a : Access) : (s.note a).outMem = s.outMem := rfl
@[simp] theorem State.note_cap (s : State) (a : Access) : (s.note a).cap = s.cap := rfl
@[simp] theorem State.note_inBase (s : State) (a : Access) : (s.note a).inBase = s.inBase := rfl
@[simp] theorem State.note_outBase (s : State) (a : Access) : (s.note a).outBase = s.outBase := rfl
@[simp] theorem State.note_agenda (s : State) (a : Access) : (s.note a).agenda = s.agenda := rfl
@[simp] theorem State.note_accesses (s : State) (a : Access) : (s.note a).accesses = s.accesses ++ [a] := rfl
@[simp] theorem State.note_draws (s : State) (a : Access) : (s.note a).draws = s.draws := rfl

@[simp] theorem State.putOut_phase (s : State) (j : Nat) (c : Byte) : (s.putOut j c).phase = s.phase := rfl
@[simp] theorem State.putOut_len (s : State) (j : Nat) (c : Byte) : (s.putOut j c).len = s.len := rfl
@[simp] theorem State.putOut_ic (s : State) (j : Nat) (c : Byte) : (s.putOut j c).ic = s.ic := rfl
@[simp] theorem State.putOut_oc (s : State) (j : Nat) (c : Byte) : (s.putOut j c).oc = s.oc := rfl
@[simp] theorem State.putOut_cnt (s : State) (j : Nat) (c : Byte) : (s.putOut j c).cnt = s.cnt := rfl
@[simp] theorem State.putOut_inMem (s : State) (j : Nat) (c : Byte) : (s.putOut j c).inMem = s.inMem := rfl
@[simp] theorem State.putOut_outMem (s : State) (j : Nat) (c : Byte) : (s.putOut j c).outMem = s.outMem.write j c := rfl
@[simp] theorem State.putOut_cap (s : State) (j : Nat) (c : Byte) : (s.putOut j c).cap = s.cap := rfl
@[simp] theorem State.putOut_inBase (s : State) (j : Nat) (c : Byte) : (s.putOut j c).inBase = s.inBase := rfl
@[simp] theorem State.putOut_outBase (s : State) (j : Nat) (c : Byte) : (s.putOut j c).outBase = s.outBase := rfl
@[simp] theorem State.putOut_agenda (s : State) (j : Nat) (c : Byte) : (s.putOut j c).agenda = s.agenda := rfl
@[simp] theorem State.putOut_accesses (s : State) (j : Nat) (c : Byte) : (s.putOut j c).accesses = s.accesses ++ [.write j c] := rfl
@[simp] theorem State.putOut_draws (s : State) (j : Nat) (c : Byte) : (s.putOut j c).draws = s.draws := rfl

@[simp] theorem State.advance_phase (s : State) (n m : Nat) : (s.advance n m).phase = s.phase := rfl
@[simp] theorem State.advance_len (s : State) (n m : Nat) : (s.advance n m).len = s.len := rfl
@[simp] theorem State.advance_ic (s : State) (n m : Nat) : (s.advance n m).ic = s.ic + n := rfl
@[simp] theorem State.advance_oc (s : State) (n m : Nat) : (s.advance n m).oc = s.oc + m := rfl
@[simp] theorem State.advance_cnt (s : State) (n m : Nat) : (s.advance n m).cnt = s.cnt := rfl
@[simp] theorem State.advance_inMem (s : State) (n m : Nat) : (s.advance n m).inMem = s.inMem := rfl
@[simp] theorem State.advance_outMem (s : State) (n m : Nat) : (s.advance n m).outMem = s.outMem := rfl
@[simp] theorem State.advance_cap (s : State) (n m : Nat) : (s.advance n m).cap = s.cap := rfl
@[simp] theorem State.advance_inBase (s : State) (n m : Nat) : (s.advance n m).inBase = s.inBase := rfl
@[simp] theorem State.advance_outBase (s : State) (n m : Nat) : (s.advance n m).outBase = s.outBase := rfl
@[simp] theorem State.advance_agenda (s : State) (n m : Nat) : (s.advance n m).agenda = s.agenda := rfl
@[simp] theorem State.advance_accesses (s : State) (n m : Nat) : (s.advance n m).accesses = s.accesses := rfl
@[simp] theorem State.advance_draws (s : State) (n m : Nat) : (s.advance n m).draws = s.draws := rfl

@[simp] theorem State.finish_phase (s : State) : (s.finish).phase = .done := rfl
@[simp] theorem State.finish_len (s : State) : (s.finish).len = s.len := rfl
@[simp] theorem State.finish_ic (s : State) : (s.finish).ic = s.ic := rfl
@[simp] theorem State.finish_oc (s : State) : (s.finish).oc = s.oc := rfl
@[simp] theorem State.finish_cnt (s : State) : (s.finish).cnt = s.oc := rfl
@[simp] theorem State.finish_inMem (s : State) : (s.finish).inMem = s.inMem := rfl
@[simp] theorem State.finish_outMem (s : State) : (s.finish).outMem = s.outMem := rfl
@[simp] theorem State.finish_cap (s : State) : (s.finish).cap = s.cap := rfl
@[simp] theorem State.finish_inBase (s : State) : (s.finish).inBase = s.inBase := rfl
@[simp] theorem State.finish_outBase (s : State) : (s.finish).outBase = s.outBase := rfl
@[simp] theorem State.finish_agenda (s : State) : (s.finish).agenda = s.agenda := rfl
@[simp] theorem State.finish_accesses (s : State) : (s.finish).accesses = s.accesses := rfl
@[simp] theorem State.finish_draws (s : State) : (s.finish).draws = s.draws := rfl

@[simp] theorem State.withIn_phase (s : State) (i : Nat) (b : Byte) : (s.withIn i b).phase = s.phase := rfl
@[simp] theorem State.withIn_len (s : State) (i : Nat) (b : Byte) : (s.withIn i b).len = s.len := rfl
@[simp] theorem State.withIn_ic (s : State) (i : Nat) (b : Byte) : (s.withIn i b).ic = s.ic := rfl
@[simp] theorem State.withIn_oc (s : State) (i : Nat) (b : Byte) : (s.withIn i b).oc = s.oc := rfl
@[simp] theorem State.withIn_cnt (s : State) (i : Nat) (b : Byte) : (s.withIn i b).cnt = s.cnt := rfl
@[simp] theorem State.withIn_inMem (s : State) (i : Nat) (b : Byte) : (s.withIn i b).inMem = s.inMem.write i b := rfl
@[simp] theorem State.withIn_outMem (s : State) (i : Nat) (b : Byte) : (s.withIn i b).outMem = s.outMem := rfl
@[simp] theorem State.withIn_cap (s : State) (i : Nat) (b : Byte) : (s.withIn i b).cap = s.cap := rfl
@[simp] theorem State.withIn_inBase (s : State) (i : Nat) (b : Byte) : (s.withIn i b).inBase = s.inBase := rfl
@[simp] theorem State.withIn_outBase (s : State) (i : Nat) (b : Byte) : (s.withIn i b).outBase = s.outBase := rfl
@[simp] theorem State.withIn_agenda (s : State) (i : Nat) (b : Byte) : (s.withIn i b).agenda = s.agenda := rfl
@[simp] theorem State.withIn_accesses (s : State) (i : Nat) (b : Byte) : (s.withIn i b).accesses = s.accesses := rfl
@[simp] theorem State.withIn_draws (s : State) (i : Nat) (b : Byte) : (s.withIn i b).draws = s.draws := rfl

@[simp] theorem State.withOut_phase (s : State) (j : Nat) (c : Byte) : (s.withOut j c).phase = s.phase := rfl
@[simp] theorem State.withOut_len (s : State) (j : Nat) (c : Byte) : (s.withOut j c).len = s.len := rfl
@[simp] theorem State.withOut_ic (s : State) (j : Nat) (c : Byte) : (s.withOut j c).ic = s.ic := rfl
@[simp] theorem State.withOut_oc (s : State) (j : Nat) (c : Byte) : (s.withOut j c).oc = s.oc := rfl
@[simp] theorem State.withOut_cnt (s : State) (j : Nat) (c : Byte) : (s.withOut j c).cnt = s.cnt := rfl
@[simp] theorem State.withOut_inMem (s : State) (j : Nat) (c : Byte) : (s.withOut j c).inMem = s.inMem := rfl
@[simp] theorem State.withOut_outMem (s : State) (j : Nat) (c : Byte) : (s.withOut j c).outMem = s.outMem.write j c := rfl
@[simp] theorem State.withOut_cap (s : State) (j : Nat) (c : Byte) : (s.withOut j c).cap = s.cap := rfl
@[simp] theorem State.withOut_inBase (s : State) (j : Nat) (c : Byte) : (s.withOut j c).inBase = s.inBase := rfl
@[simp] theorem State.withOut_outBase (s : State) (j : Nat) (c : Byte) : (s.withOut j c).outBase = s.outBase := rfl
@[simp] theorem State.withOut_agenda (s : State) (j : Nat) (c : Byte) : (s.withOut j c).agenda = s.agenda := rfl
@[simp] theorem State.withOut_accesses (s : State) (j : Nat) (c : Byte) : (s.withOut j c).accesses = s.accesses := rfl
@[simp] theorem State.withOut_draws (s : State) (j : Nat) (c : Byte) : (s.withOut j c).draws = s.draws := rfl

@[simp] theorem State.withAgenda_phase (s : State) (ts : List Turn) : (s.withAgenda ts).phase = s.phase := rfl
@[simp] theorem State.withAgenda_len (s : State) (ts : List Turn) : (s.withAgenda ts).len = s.len := rfl
@[simp] theorem State.withAgenda_ic (s : State) (ts : List Turn) : (s.withAgenda ts).ic = s.ic := rfl
@[simp] theorem State.withAgenda_oc (s : State) (ts : List Turn) : (s.withAgenda ts).oc = s.oc := rfl
@[simp] theorem State.withAgenda_cnt (s : State) (ts : List Turn) : (s.withAgenda ts).cnt = s.cnt := rfl
@[simp] theorem State.withAgenda_inMem (s : State) (ts : List Turn) : (s.withAgenda ts).inMem = s.inMem := rfl
@[simp] theorem State.withAgenda_outMem (s : State) (ts : List Turn) : (s.withAgenda ts).outMem = s.outMem := rfl
@[simp] theorem State.withAgenda_cap (s : State) (ts : List Turn) : (s.withAgenda ts).cap = s.cap := rfl
@[simp] theorem State.withAgenda_inBase (s : State) (ts : List Turn) : (s.withAgenda ts).inBase = s.inBase := rfl
@[simp] theorem State.withAgenda_outBase (s : State) (ts : List Turn) : (s.withAgenda ts).outBase = s.outBase := rfl
@[simp] theorem State.withAgenda_agenda (s : State) (ts : List Turn) : (s.withAgenda ts).agenda = ts := rfl
@[simp] theorem State.withAgenda_accesses (s : State) (ts : List Turn) : (s.withAgenda ts).accesses = s.accesses := rfl
@[simp] theorem State.withAgenda_draws (s : State) (ts : List Turn) : (s.withAgenda ts).draws = s.draws := rfl

@[simp] theorem State.turnTaken_phase (s : State) : (s.turnTaken).phase = s.phase := rfl
@[simp] theorem State.turnTaken_len (s : State) : (s.turnTaken).len = s.len := rfl
@[simp] theorem State.turnTaken_ic (s : State) : (s.turnTaken).ic = s.ic := rfl
@[simp] theorem State.turnTaken_oc (s : State) : (s.turnTaken).oc = s.oc := rfl
@[simp] theorem State.turnTaken_cnt (s : State) : (s.turnTaken).cnt = s.cnt := rfl
@[simp] theorem State.turnTaken_inMem (s : State) : (s.turnTaken).inMem = s.inMem := rfl
@[simp] theorem State.turnTaken_outMem (s : State) : (s.turnTaken).outMem = s.outMem := rfl
@[simp] theorem State.turnTaken_cap (s : State) : (s.turnTaken).cap = s.cap := rfl
@[simp] theorem State.turnTaken_inBase (s : State) : (s.turnTaken).inBase = s.inBase := rfl
@[simp] theorem State.turnTaken_outBase (s : State) : (s.turnTaken).outBase = s.outBase := rfl
@[simp] theorem State.turnTaken_agenda (s : State) : (s.turnTaken).agenda = s.agenda.tail := rfl
@[simp] theorem State.turnTaken_accesses (s : State) : (s.turnTaken).accesses = s.accesses := rfl
@[simp] theorem State.turnTaken_draws (s : State) : (s.turnTaken).draws = s.draws := rfl

@[simp] theorem State.launched_phase (s : State) (l : Launch) : (s.launched l).phase = .run := rfl
@[simp] theorem State.launched_len (s : State) (l : Launch) : (s.launched l).len = l.len := rfl
@[simp] theorem State.launched_ic (s : State) (l : Launch) : (s.launched l).ic = 0 := rfl
@[simp] theorem State.launched_oc (s : State) (l : Launch) : (s.launched l).oc = 0 := rfl
@[simp] theorem State.launched_cnt (s : State) (l : Launch) : (s.launched l).cnt = s.cnt := rfl
@[simp] theorem State.launched_inMem (s : State) (l : Launch) : (s.launched l).inMem = Memory.ofBytes (l.input.take l.len) := rfl
@[simp] theorem State.launched_outMem (s : State) (l : Launch) : (s.launched l).outMem = Memory.ofBytes (l.output.take l.cap) := rfl
@[simp] theorem State.launched_cap (s : State) (l : Launch) : (s.launched l).cap = l.cap := rfl
@[simp] theorem State.launched_inBase (s : State) (l : Launch) : (s.launched l).inBase = l.inBase := rfl
@[simp] theorem State.launched_outBase (s : State) (l : Launch) : (s.launched l).outBase = l.outBase := rfl
@[simp] theorem State.launched_agenda (s : State) (l : Launch) : (s.launched l).agenda = s.agenda := rfl
@[simp] theorem State.launched_accesses (s : State) (l : Launch) : (s.launched l).accesses = [] := rfl
@[simp] theorem State.launched_draws (s : State) (l : Launch) : (s.launched l).draws = s.draws := rfl

@[simp] theorem State.afterReset_phase (s : State) : (s.afterReset).phase = .idle := rfl
@[simp] theorem State.afterReset_len (s : State) : (s.afterReset).len = 0 := rfl
@[simp] theorem State.afterReset_ic (s : State) : (s.afterReset).ic = 0 := rfl
@[simp] theorem State.afterReset_oc (s : State) : (s.afterReset).oc = 0 := rfl
@[simp] theorem State.afterReset_cnt (s : State) : (s.afterReset).cnt = 0 := rfl
@[simp] theorem State.afterReset_inMem (s : State) : (s.afterReset).inMem = s.inMem := rfl
@[simp] theorem State.afterReset_outMem (s : State) : (s.afterReset).outMem = fillFree (openCells s) s.draws s.outMem := rfl
@[simp] theorem State.afterReset_cap (s : State) : (s.afterReset).cap = s.cap := rfl
@[simp] theorem State.afterReset_inBase (s : State) : (s.afterReset).inBase = s.inBase := rfl
@[simp] theorem State.afterReset_outBase (s : State) : (s.afterReset).outBase = s.outBase := rfl
@[simp] theorem State.afterReset_agenda (s : State) : (s.afterReset).agenda = s.agenda := rfl
@[simp] theorem State.afterReset_accesses (s : State) : (s.afterReset).accesses = [] := rfl
@[simp] theorem State.afterReset_draws (s : State) : (s.afterReset).draws = s.draws + openCells s := rfl

end Sys2Proof.Machine
end

