-- ==== Sys2Proof/Laws/Ops.lean ====
section
/-!
SUPPORT. What each shared operation can do, once: its answer when the premises hold, and what an answer tells.
-/

namespace Sys2Proof.Machine

@[simp] theorem andThen_of_next {α β : Type} (a : α) (f : α → Answer β) : andThen (.next a) f = f a := rfl

@[simp] theorem andThen_of_fault {α β : Type} (r : Fault) (f : α → Answer β) :
    andThen (.fault r : Answer α) f = .fault r := rfl

@[simp] theorem andThen_of_refused {α β : Type} (r : Refusal) (f : α → Answer β) :
    andThen (.refused r : Answer α) f = .refused r := rfl

/-- A sequence answers a next value exactly when both of its parts do. -/
theorem andThen_eq_next {α β : Type} {o : Answer α} {f : α → Answer β} {b : β} :
    andThen o f = .next b ↔ ∃ a, o = .next a ∧ f a = .next b := by
  cases o <;> simp [andThen]

/-- The reads of `bs` from index `i` on, as the history lists them. -/
def readsOf (i : Nat) : List Byte → List Access
  | [] => []
  | b :: bs => .read i b :: readsOf (i + 1) bs

/-- The writes of `cs` from index `j` on, as the history lists them. -/
def writesOf (j : Nat) : List Byte → List Access
  | [] => []
  | c :: cs => .write j c :: writesOf (j + 1) cs

/-- A memory after the characters `cs` went to index `j` on. -/
def writeAll (m : Memory) (j : Nat) : List Byte → Memory
  | [] => m
  | c :: cs => writeAll (m.write j c) (j + 1) cs

/-- `MemRead` answers exactly when the index is below `LEN` and its cell holds a value. -/
theorem memRead_eq_next {s t : State} {i : Nat} {b : Byte} :
    memRead s i = .next (b, t) ↔ i < s.len ∧ s.inMem.read i = some b ∧ t = s.note (.read i b) := by
  unfold memRead
  constructor
  · intro h
    split_ifs at h with h1
    split at h
    · next b' hb => cases h; exact ⟨h1, hb, rfl⟩
    · cases h
  · rintro ⟨h1, h2, rfl⟩
    simp [h1, h2]

/-- `MemWrite` answers exactly when the index is below `CAP` and below `N_out(LEN)`. -/
theorem memWrite_eq_next {s t : State} {j : Nat} {c : Byte} :
    memWrite s j c = .next t ↔ (j < s.cap ∧ j < nOut s.len) ∧ t = s.putOut j c := by
  unfold memWrite
  split_ifs with h h2
  · simp [h, h2, eq_comm]
  · simp [h2]
  · simp [h]

/-- `MemWrite` below `CAP` and at or past `N_out(LEN)` is refused (R110). -/
theorem memWrite_pastCount {s : State} {j : Nat} (c : Byte) (h : j < s.cap) (h2 : nOut s.len ≤ j) :
    memWrite s j c = .refused .writePastCount := by
  simp [memWrite, h, Nat.not_lt.2 h2]

/-- `MemWrite` at or past `CAP` faults (R203). -/
theorem memWrite_overflow {s : State} {j : Nat} (c : Byte) (h : s.cap ≤ j) :
    memWrite s j c = .fault .outputOverflow := by
  simp [memWrite, Nat.not_lt.2 h]

/-- What `n` reads answer: the bytes of the cells, and the history longer by these reads. -/
theorem readBytes_eq_next {n i : Nat} {s t : State} {bs : List Byte} :
    readBytes n i s = .next (bs, t) ↔
      bs.length = n ∧ (∀ k, k < n → i + k < s.len ∧ s.inMem.read (i + k) = bs[k]?) ∧
      t = { s with accesses := s.accesses ++ readsOf i bs } := by
  induction n generalizing i s t bs with
  | zero =>
    simp only [readBytes, Host.Outcome.next.injEq, Prod.mk.injEq, List.length_eq_zero_iff]
    constructor
    · rintro ⟨rfl, rfl⟩; simp [readsOf]
    · rintro ⟨rfl, -, rfl⟩; simp [readsOf]
  | succ n ih =>
    simp only [readBytes, andThen_eq_next]
    constructor
    · rintro ⟨⟨b, s1⟩, h1, ⟨⟨q, s2⟩, h2, h3⟩⟩
      obtain ⟨hlt, hb, rfl⟩ := memRead_eq_next.1 h1
      obtain ⟨hlen, hq, rfl⟩ := ih.1 h2
      cases h3
      refine ⟨by simp [hlen], ?_, ?_⟩
      · intro k hk
        cases k with
        | zero => exact ⟨hlt, by simpa using hb⟩
        | succ k =>
          have hqk := hq k (by omega)
          rw [State.note_len, State.note_inMem, show i + 1 + k = i + (k + 1) by omega] at hqk
          simpa using hqk
      · simp [State.note, readsOf]
    · rintro ⟨hlen, hbs, rfl⟩
      cases bs with
      | nil => simp at hlen
      | cons b bs =>
        have h0 := hbs 0 (by omega)
        refine ⟨(b, s.note (.read i b)), memRead_eq_next.2 ⟨by simpa using h0.1, by simpa using h0.2, rfl⟩, ?_⟩
        refine ⟨(bs, _), ih.2 ⟨by simpa using hlen, ?_, rfl⟩, by simp [State.note, readsOf]⟩
        intro k hk
        have h1 := hbs (k + 1) (by omega)
        rw [show i + (k + 1) = i + 1 + k by omega] at h1
        simpa using h1

/-- What writing `cs` answers: the cells written in ascending order, and the history longer by these writes. -/
theorem writeChars_eq_next {cs : List Byte} {j : Nat} {s t : State} :
    writeChars cs j s = .next t ↔
      (∀ k, k < cs.length → j + k < s.cap ∧ j + k < nOut s.len) ∧
      t = { s with outMem := writeAll s.outMem j cs, accesses := s.accesses ++ writesOf j cs } := by
  induction cs generalizing j s t with
  | nil =>
    simp only [writeChars, writeAll, writesOf, Host.Outcome.next.injEq, List.append_nil, eq_comm (a := s)]
    simp
  | cons c cs ih =>
    simp only [writeChars, andThen_eq_next]
    constructor
    · rintro ⟨s1, h1, h2⟩
      obtain ⟨hlt, rfl⟩ := memWrite_eq_next.1 h1
      obtain ⟨hcap, rfl⟩ := ih.1 h2
      refine ⟨?_, by simp [State.putOut, writeAll, writesOf]⟩
      intro k hk
      cases k with
      | zero => exact hlt
      | succ k =>
        have := hcap k (by simpa using hk)
        simp only [State.putOut_cap, State.putOut_len] at this
        omega
    · rintro ⟨hcap, rfl⟩
      refine ⟨s.putOut j c, memWrite_eq_next.2 ⟨by simpa using hcap 0 (by simp), rfl⟩,
        ih.2 ⟨?_, by simp [State.putOut, writeAll, writesOf]⟩⟩
      intro k hk
      have := hcap (k + 1) (by simpa using hk)
      simp only [State.putOut_cap, State.putOut_len]
      omega

/-- Writing past `CAP` faults, where `CAP` is the bound that is met first (R203). -/
theorem writeChars_overflow {cs : List Byte} {j : Nat} {s : State} (hne : cs ≠ []) (h : s.cap < j + cs.length)
    (hb : s.cap ≤ nOut s.len ∨ s.cap ≤ j) :
    writeChars cs j s = .fault .outputOverflow := by
  induction cs generalizing j s with
  | nil => exact absurd rfl hne
  | cons c cs ih =>
    by_cases hj : j < s.cap
    · rw [writeChars, memWrite_eq_next.2 ⟨⟨hj, by omega⟩, rfl⟩, andThen_of_next]
      refine ih ?_ (by simp only [List.length_cons] at h; simp only [State.putOut_cap]; omega)
        (by simp only [State.putOut_cap, State.putOut_len]; omega)
      rintro rfl
      simp at h
      omega
    · rw [writeChars, memWrite_overflow c (by omega), andThen_of_fault]

/-- Writing past `N_out(LEN)` is refused, where that is the bound that is met first (R110). -/
theorem writeChars_pastCount {cs : List Byte} {j : Nat} {s : State} (hne : cs ≠ [])
    (h : nOut s.len < j + cs.length) (hc : nOut s.len < s.cap) (hj : j < s.cap) :
    writeChars cs j s = .refused .writePastCount := by
  induction cs generalizing j s with
  | nil => exact absurd rfl hne
  | cons c cs ih =>
    by_cases hn : j < nOut s.len
    · rw [writeChars, memWrite_eq_next.2 ⟨⟨hj, hn⟩, rfl⟩, andThen_of_next]
      refine ih ?_ (by simp only [List.length_cons] at h; simp only [State.putOut_len]; omega)
        (by simpa using hc) (by simp only [State.putOut_cap]; omega)
      rintro rfl
      simp at h
      omega
    · rw [writeChars, memWrite_pastCount c hj (by omega), andThen_of_refused]

theorem read_writeAll (m : Memory) (j : Nat) (cs : List Byte) (a : Nat) :
    Memory.read (writeAll m j cs) a =
      if j ≤ a ∧ a < j + cs.length then cs[a - j]? else Memory.read m a := by
  induction cs generalizing m j with
  | nil => simp [writeAll]
  | cons c cs ih =>
    rw [writeAll, ih, Memory.read_write, List.length_cons]
    by_cases h : a = j
    · subst h
      simp
    · by_cases h2 : j ≤ a ∧ a < j + (cs.length + 1)
      · have h3 : a - j = (a - (j + 1)) + 1 := by omega
        rw [if_pos (by omega), if_pos h2, h3, List.getElem?_cons_succ]
      · rw [if_neg (by omega), if_neg h, if_neg h2]

theorem wf_writeAll (m : Memory) (j : Nat) (cs : List Byte) (h : Memory.wf m = true) :
    Memory.wf (writeAll m j cs) = true := by
  induction cs generalizing m j with
  | nil => exact h
  | cons c cs ih => exact ih _ _ (Memory.wf_write m j c h)

/-- What a group operation answers, and when: every byte is there to be read, every character has room in `CAP` and
belongs to the call's `N_out(LEN)`. -/
theorem encodeGroup_eq_next {n : Nat} {chars : Word32 → List Byte} {s t : State} :
    encodeGroup n chars s = .next t ↔
      ∃ bs : List Byte, bs.length = n ∧
        (∀ k, k < n → s.ic + k < s.len ∧ s.inMem.read (s.ic + k) = bs[k]?) ∧
        (∀ k, k < (chars (parseWord bs)).length → s.oc + k < s.cap ∧ s.oc + k < nOut s.len) ∧
        t = { s with
              ic := s.ic + n, oc := s.oc + (chars (parseWord bs)).length
              outMem := writeAll s.outMem s.oc (chars (parseWord bs))
              accesses := s.accesses ++ readsOf s.ic bs ++ writesOf s.oc (chars (parseWord bs)) } := by
  simp only [encodeGroup, andThen_eq_next]
  constructor
  · rintro ⟨⟨bs, s1⟩, h1, s2, h2, h3⟩
    obtain ⟨hlen, hr, rfl⟩ := readBytes_eq_next.1 h1
    obtain ⟨hw, rfl⟩ := writeChars_eq_next.1 h2
    cases h3
    exact ⟨bs, hlen, hr, hw, rfl⟩
  · rintro ⟨bs, hlen, hr, hw, rfl⟩
    exact ⟨(bs, _), readBytes_eq_next.2 ⟨hlen, hr, rfl⟩, _, writeChars_eq_next.2 ⟨hw, rfl⟩, rfl⟩

/-- A group whose bytes are there but whose characters have no room in `CAP` faults (R203). -/
theorem encodeGroup_overflow {n : Nat} {chars : Word32 → List Byte} {s : State} {bs : List Byte}
    (hlen : bs.length = n) (hr : ∀ k, k < n → s.ic + k < s.len ∧ s.inMem.read (s.ic + k) = bs[k]?)
    (hne : chars (parseWord bs) ≠ []) (h : s.cap < s.oc + (chars (parseWord bs)).length)
    (hb : s.cap ≤ nOut s.len ∨ s.cap ≤ s.oc) :
    encodeGroup n chars s = .fault .outputOverflow := by
  rw [encodeGroup, readBytes_eq_next.2 ⟨hlen, hr, rfl⟩, andThen_of_next]
  dsimp only
  rw [writeChars_overflow (s := { s with accesses := s.accesses ++ readsOf s.ic bs }) hne h hb]
  rfl

/-- A group whose bytes are there but whose characters go past `N_out(LEN)` is refused (R110). -/
theorem encodeGroup_pastCount {n : Nat} {chars : Word32 → List Byte} {s : State} {bs : List Byte}
    (hlen : bs.length = n) (hr : ∀ k, k < n → s.ic + k < s.len ∧ s.inMem.read (s.ic + k) = bs[k]?)
    (hne : chars (parseWord bs) ≠ []) (h : nOut s.len < s.oc + (chars (parseWord bs)).length)
    (hc : nOut s.len < s.cap) (hj : s.oc < s.cap) :
    encodeGroup n chars s = .refused .writePastCount := by
  rw [encodeGroup, readBytes_eq_next.2 ⟨hlen, hr, rfl⟩, andThen_of_next]
  dsimp only
  rw [writeChars_pastCount (s := { s with accesses := s.accesses ++ readsOf s.ic bs }) hne h hc hj]
  rfl

/-- ENC.FULL answers exactly when its guard holds and its group does. -/
theorem execEncFull_eq_next {s t : State} :
    execEncFull s = .next t ↔
      (s.phase = .run ∧ s.ic + 4 ≤ s.len) ∧ encodeGroup 4 (fullGroupChars Config.tableB) s = .next t := by
  unfold execEncFull
  split_ifs with h <;> simp [h]

/-- ENC.TAILr answers exactly when its guard holds and its group does. -/
theorem encodeTail_eq_next {r : Nat} {s t : State} :
    encodeTail r s = .next t ↔
      (s.phase = .run ∧ s.ic + r = s.len) ∧ encodeGroup r (tailGroupChars Config.tableB r) s = .next t := by
  unfold encodeTail
  split_ifs with h <;> simp [h]

/-- ENC.FINISH answers exactly when its guard holds. -/
theorem execEncFinish_eq_next {s t : State} :
    execEncFinish s = .next t ↔ (s.phase = .run ∧ s.ic = s.len) ∧ t = s.finish := by
  unfold execEncFinish
  split_ifs with h
  · simp only [h, and_self, true_and, Host.Outcome.next.injEq, eq_comm]
  · simp [h]

@[simp] theorem fullGroupChars_length (t : TableB) (v : Word32) : (fullGroupChars t v).length = 5 := rfl

theorem tailGroupChars_length (t : TableB) {r : Nat} (v : Word32) (h : r ≤ 3) :
    (tailGroupChars t r v).length = r + 1 := by
  simp [tailGroupChars]; omega

end Sys2Proof.Machine
end

