-- ==== Sys2Proof/Laws/PerInstr.lean ====
section
/-!
SUPPORT. The statements made per operation of Instr: its selector words are those of its row of the opcode map.
-/

namespace Sys2Proof.Laws.OwnRow

/-- The row of an operation in the opcode map: mask and match (30_encoding.md R81). -/
def row : Instr → Selector × Selector
  | .encFull => (0b100, 0b100)
  | .encTail1 => (0b111, 0b001)
  | .encTail2 => (0b111, 0b010)
  | .encTail3 => (0b111, 0b011)
  | .encFinish => (0b111, 0b000)

/-- The operation is well formed, and a selector value is one of its words exactly when it meets the mask and match of
the operation's own row (R81, R92). -/
def Statement (i : Instr) : Prop :=
  i.wellFormed = true ∧ ∀ sel : Selector, sel &&& (row i).1 = (row i).2 ↔ ∃ low, encode i low = sel

theorem encFull : Statement .encFull := by unfold Statement; decide
theorem encTail1 : Statement .encTail1 := by unfold Statement; decide
theorem encTail2 : Statement .encTail2 := by unfold Statement; decide
theorem encTail3 : Statement .encTail3 := by unfold Statement; decide
theorem encFinish : Statement .encFinish := by unfold Statement; decide

end Sys2Proof.Laws.OwnRow
end

