-- ==== Sys2Proof/Laws/Pure.lean ====
section
/-!
SUPPORT. Small facts of the pure functions: the counts, Table A, the assembly of a word.
-/

namespace Sys2Proof.Machine

theorem tailCount_mod_four (n : Nat) : tailCount (n % 4) = if n % 4 = 0 then 0 else n % 4 + 1 := by
  have h : n % 4 = 0 ∨ n % 4 = 1 ∨ n % 4 = 2 ∨ n % 4 = 3 := by omega
  rcases h with h | h | h | h <;> rw [h] <;> rfl

/-- A full group more makes five characters more. -/
theorem nOut_add_four (n : Nat) : nOut (n + 4) = nOut n + 5 := by
  have h1 : (n + 4) % 4 = n % 4 := by omega
  have h2 : (n + 4) / 4 = n / 4 + 1 := by omega
  unfold nOut
  rw [h1, h2]
  omega

/-- A tail of `r` bytes after full groups makes `r + 1` characters more. -/
theorem nOut_add_tail {n r : Nat} (hn : n % 4 = 0) (h1 : 1 ≤ r) (h3 : r ≤ 3) :
    nOut (n + r) = nOut n + (r + 1) := by
  unfold nOut
  rw [tailCount_mod_four, tailCount_mod_four, if_pos hn, if_neg (by omega)]
  omega

theorem lutATable_nodup : lutATable.Nodup := by decide +kernel

/-- Table A has no character twice (R152). -/
theorem lutA_injective {d e : Digit} (h : lutA d = lutA e) : d = e := by
  have hcast := (List.nodup_iff_injective_get.1 lutATable_nodup) h
  exact Fin.ext (by simpa using congrArg Fin.val hcast)

theorem lutA_zero : lutA 0 = 0x30 := by decide

/-- Every character of Table A is printable and none is the space (R87). -/
theorem lutA_printable : ∀ d, (0x20 : Byte) < lutA d ∧ lutA d ≤ 0x7E := by decide

/-- Four bytes side by side as a number. -/
theorem assemble_toNat (b0 b1 b2 b3 : Byte) :
    (assemble b0 b1 b2 b3).toNat = ((b0.toNat * 256 + b1.toNat) * 256 + b2.toNat) * 256 + b3.toNat := by
  unfold assemble
  rw [BitVec.toNat_append, BitVec.toNat_append, BitVec.toNat_append, ← Nat.shiftLeft_add_eq_or_of_lt b1.isLt,
    ← Nat.shiftLeft_add_eq_or_of_lt b2.isLt, ← Nat.shiftLeft_add_eq_or_of_lt b3.isLt]
  simp only [Nat.shiftLeft_eq]

end Sys2Proof.Machine
end

