-- ==== Sys2Proof/Laws/Step.lean ====
section
/-!
SUPPORT. What a move of the host, an operation and a step can do, once: every later claim about `step` starts here.
-/

namespace Sys2Proof.Machine

/-- START answers exactly under its premises, and then with the launched state (R101). -/
theorem startWith_eq_next {w : Width} {aw : Nat} {l : Launch} {s t : State} :
    startWith w aw l s = .next t ↔
      s.phase ≠ .run ∧ launchCapOk l = true ∧ launchFits w l = true ∧
        launchDisjoint l = true ∧ launchAddressable aw l = true ∧ launchHasInput l = true ∧ t = s.launched l := by
  unfold startWith
  rw [eq_comm (a := t)]
  split_ifs with h1 h2 h3 h4 h5 h6 <;> simp_all

/-- START either answers a next state or is refused; it never faults. -/
theorem startWith_refused_of_premise {w : Width} {aw : Nat} {l : Launch} {s : State} (hp : s.phase ≠ .run)
    (h : ¬ (launchCapOk l = true ∧ launchFits w l = true ∧ launchDisjoint l = true ∧
      launchAddressable aw l = true ∧ launchHasInput l = true)) :
    ∃ r, startWith w aw l s = .refused r := by
  unfold startWith
  rw [if_neg hp]
  split_ifs with h2 h3 h4 h5 h6
  · exact ⟨_, rfl⟩
  · exact ⟨_, rfl⟩
  · exact ⟨_, rfl⟩
  · exact ⟨_, rfl⟩
  · exact ⟨_, rfl⟩
  · simp_all

/-- The host writes a cell of `IN` exactly outside RUN and where the buffer has it. -/
theorem hostWriteIn_eq_next {i : Nat} {b : Byte} {s t : State} :
    hostWriteIn i b s = .next t ↔
      s.phase ≠ .run ∧ (s.inMem.read i).isSome = true ∧ t = s.withIn i b := by
  unfold hostWriteIn
  split_ifs with h
  · simp [h]
  · cases hr : s.inMem.read i <;> simp [h, eq_comm]

/-- The host writes a cell of `OUT` exactly outside RUN and where the buffer has it. -/
theorem hostWriteOut_eq_next {j : Nat} {c : Byte} {s t : State} :
    hostWriteOut j c s = .next t ↔ s.phase ≠ .run ∧ j < s.cap ∧ t = s.withOut j c := by
  unfold hostWriteOut
  split_ifs with h1 h2 <;> simp [h1, eq_comm] <;> simp_all

/-- The count is readable exactly in DONE (R107). -/
theorem readCount_eq_next {s : State} {n : Nat} : readCount s = .next n ↔ s.phase = .done ∧ n = s.cnt := by
  unfold readCount
  split_ifs with h
  · simp only [h, true_and, Host.Outcome.next.injEq, eq_comm]
  · simp [h]

/-- All that a move of the host can do: leave the state, reset it, launch a call, or write one cell outside RUN. -/
theorem hostMove_cases {m : HostMove} {s t : State} (h : hostMove m s = .next t) :
    t = s ∨
    (m = .reset ∧ t = s.afterReset) ∨
    (∃ l, m = .start l ∧ hostStart l s = .next t) ∨
    (∃ i b, m = .writeIn i b ∧ s.phase ≠ .run ∧ (s.inMem.read i).isSome = true ∧ t = s.withIn i b) ∨
    (∃ j c, m = .writeOut j c ∧ s.phase ≠ .run ∧ j < s.cap ∧ t = s.withOut j c) := by
  cases m with
  | reset => cases h; exact .inr (.inl ⟨rfl, rfl⟩)
  | start l => exact .inr (.inr (.inl ⟨l, rfl, h⟩))
  | result => obtain ⟨_, -, h2⟩ := andThen_eq_next.1 h; cases h2; exact .inl rfl
  | readIn i => obtain ⟨_, -, h2⟩ := andThen_eq_next.1 h; cases h2; exact .inl rfl
  | readOut j => obtain ⟨_, -, h2⟩ := andThen_eq_next.1 h; cases h2; exact .inl rfl
  | writeIn i b => exact .inr (.inr (.inr (.inl ⟨i, b, rfl, hostWriteIn_eq_next.1 h⟩)))
  | writeOut j c => exact .inr (.inr (.inr (.inr ⟨j, c, rfl, hostWriteOut_eq_next.1 h⟩)))

/-- All that an operation can do: encode a full group, encode a tail of 1 to 3 bytes, or end the call. -/
theorem exec_cases {i : Instr} {s t : State} (h : exec i s = .next t) :
    s.phase = .run ∧
    ((i = .encFull ∧ s.ic + 4 ≤ s.len ∧ encodeGroup 4 (fullGroupChars Config.tableB) s = .next t) ∨
     (∃ r, 1 ≤ r ∧ r ≤ 3 ∧ s.ic + r = s.len ∧ encodeGroup r (tailGroupChars Config.tableB r) s = .next t) ∨
     (i = .encFinish ∧ s.ic = s.len ∧ t = s.finish)) := by
  cases i with
  | encFull => obtain ⟨⟨h1, h2⟩, h3⟩ := execEncFull_eq_next.1 h; exact ⟨h1, .inl ⟨rfl, h2, h3⟩⟩
  | encTail1 =>
    obtain ⟨⟨h1, h2⟩, h3⟩ := encodeTail_eq_next.1 h
    exact ⟨h1, .inr (.inl ⟨1, by decide, by decide, h2, h3⟩)⟩
  | encTail2 =>
    obtain ⟨⟨h1, h2⟩, h3⟩ := encodeTail_eq_next.1 h
    exact ⟨h1, .inr (.inl ⟨2, by decide, by decide, h2, h3⟩)⟩
  | encTail3 =>
    obtain ⟨⟨h1, h2⟩, h3⟩ := encodeTail_eq_next.1 h
    exact ⟨h1, .inr (.inl ⟨3, by decide, by decide, h2, h3⟩)⟩
  | encFinish => obtain ⟨⟨h1, h2⟩, h3⟩ := execEncFinish_eq_next.1 h; exact ⟨h1, .inr (.inr ⟨rfl, h2, h3⟩)⟩

/-- What the sequencer selects in RUN. -/
theorem selected_run {s : State} (h : s.phase = .run) (hle : s.ic ≤ s.len) :
    selected s = .next (some (decode s.sel)) := by
  simp [selected, h, hle]

/-- Outside RUN the encoder has no step. -/
theorem selected_hold {s : State} (h : s.phase ≠ .run) : selected s = .next none := by
  unfold selected
  cases hp : s.phase <;> simp_all

/-- The selector of `rb` remaining bytes as a number. -/
theorem selectorOf_toNat (rb : Nat) : (selectorOf rb).toNat = (if 4 ≤ rb then 4 else 0) + rb % 4 := by
  by_cases h : 4 ≤ rb
  · have h2 : (selectorOf rb) = 1#1 ++ BitVec.ofNat 2 rb := by simp [selectorOf, h]
    have h3 : rb % 4 < 2 ^ 2 := by omega
    rw [h2, BitVec.toNat_append, if_pos h]
    simp only [BitVec.toNat_ofNat, Nat.reducePow, Nat.reduceMod]
    rw [← Nat.shiftLeft_add_eq_or_of_lt h3]
    rfl
  · have h2 : (selectorOf rb) = 0#1 ++ BitVec.ofNat 2 rb := by simp [selectorOf, h]
    rw [h2, BitVec.toNat_append, if_neg h]
    simp

/-- The operation for `rb` remaining bytes, in words (R103). -/
theorem decode_selectorOf (rb : Nat) :
    decode (selectorOf rb) =
      if 4 ≤ rb then .encFull
      else if rb = 1 then .encTail1
      else if rb = 2 then .encTail2
      else if rb = 3 then .encTail3
      else .encFinish := by
  by_cases h : 4 ≤ rb
  · have h2 : (selectorOf rb) = 1#1 ++ BitVec.ofNat 2 rb := by simp [selectorOf, h]
    have h3 : ∀ x : BitVec 2, decode (1#1 ++ x) = .encFull := by decide
    rw [if_pos h, h2, h3]
  · have h2 : rb = 0 ∨ rb = 1 ∨ rb = 2 ∨ rb = 3 := by omega
    rcases h2 with rfl | rfl | rfl | rfl <;> decide

/-- All that a step of the encoder can do: wait outside RUN, or the selected operation in RUN. -/
theorem encoderStep_cases {s t : State} (h : encoderStep s = .next t) :
    (s.phase ≠ .run ∧ t = s) ∨
    (s.phase = .run ∧ s.ic ≤ s.len ∧ exec (decode (selectorOf (s.len - s.ic))) s = .next t) := by
  by_cases hp : s.phase = .run
  · by_cases hle : s.ic ≤ s.len
    · rw [encoderStep, selected_run hp hle] at h
      exact .inr ⟨hp, hle, h⟩
    · simp [encoderStep, selected, hp, hle] at h
  · rw [encoderStep, selected_hold hp] at h
    cases h
    exact .inl ⟨hp, rfl⟩

/-- Whether a base and `n` cells from it on have addresses of `aw` bits, address by address. -/
theorem spanFits_iff {aw a n : Nat} :
    spanFits aw a n = true ↔ a < 2 ^ aw ∧ ∀ i, i < n → a + i < 2 ^ aw := by
  simp only [spanFits, Bool.and_eq_true, decide_eq_true_eq]
  constructor
  · rintro ⟨h1, h2⟩
    exact ⟨h1, fun i hi => by omega⟩
  · rintro ⟨h1, h2⟩
    refine ⟨h1, ?_⟩
    cases n with
    | zero => omega
    | succ n => have := h2 n (by omega); omega

/-- With nothing on the agenda, taking the turn changes nothing. -/
theorem turnTaken_of_agenda_nil {s : State} (h : s.agenda = []) : s.turnTaken = s := by
  cases s
  cases h
  rfl

/-- All that a step can do: a move of the host, or a step of the encoder, on the state whose agenda is one turn on. -/
theorem step_cases {s t : State} (h : step s = .next t) :
    (∃ m, s.nextMove = some m ∧ hostMove m s.turnTaken = .next t) ∨
    (s.nextMove = none ∧ encoderStep s.turnTaken = .next t) := by
  unfold step at h
  cases hm : s.nextMove with
  | none => rw [hm] at h; exact .inr ⟨rfl, h⟩
  | some m => rw [hm] at h; exact .inl ⟨m, rfl, h⟩

/-- With nothing on the agenda a step is the encoder's. -/
theorem step_of_agenda_nil {s : State} (h : s.agenda = []) : step s = encoderStep s := by
  simp [step, State.nextMove, h, turnTaken_of_agenda_nil h]

/-- A host move at the head of the agenda is the step. -/
theorem step_of_agenda_host {s : State} {m : HostMove} {ts : List Turn} (h : s.agenda = .host m :: ts) :
    step s = hostMove m (s.withAgenda ts) := by
  simp [step, State.nextMove, moveOf, State.turnTaken, h]

/-- An encoder turn at the head of the agenda is the step. -/
theorem step_of_agenda_encoder {s : State} {ts : List Turn} (h : s.agenda = .encoder :: ts) :
    step s = encoderStep (s.withAgenda ts) := by
  simp [step, State.nextMove, moveOf, State.turnTaken, h]

/-- A RESET that coincides with another move is the step, whatever the other move is (R202). -/
theorem step_of_agenda_resetWith {s : State} {r : Rival} {ts : List Turn} (h : s.agenda = .resetWith r :: ts) :
    step s = .next (s.withAgenda ts).afterReset := by
  simp [step, State.nextMove, moveOf, State.turnTaken, h, hostMove, hostReset]

end Sys2Proof.Machine
end

