-- ==== Sys2Proof/Laws/Run.lean ====
section
/-!
SUPPORT. A run of the machine, one step at a time.
-/

namespace Sys2Proof.Machine

@[simp] theorem runSteps_zero (s : State) : runSteps 0 s = .next s := rfl

/-- What the host's run does after a step, by the three outcomes of the step. -/
theorem core_run_succ (k : Nat) (s : State) :
    (∀ t, core.step s = .next t → core.run (k + 1) s = core.run k t) ∧
    (∀ r, core.step s = .fault r → core.run (k + 1) s = .fault r) ∧
    (∀ r, core.step s = .refused r → core.run (k + 1) s = .refused r) := by
  refine ⟨?_, ?_, ?_⟩ <;> intro x h <;> simp [Host.Core.run, h]

/-- A run of one step more is that step and then the run. -/
theorem runSteps_succ (k : Nat) (s : State) : runSteps (k + 1) s = andThen (step s) (runSteps k) := by
  obtain ⟨hn, hf, hr⟩ := core_run_succ k s
  cases h : step s with
  | next t => exact hn t h
  | fault r => exact hf r h
  | refused r => exact hr r h

/-- A run that begins with a step to `t` goes on from `t`. -/
theorem runSteps_of_step {k : Nat} {s t : State} (h : step s = .next t) :
    runSteps (k + 1) s = runSteps k t := by
  rw [runSteps_succ, h, andThen_of_next]

end Sys2Proof.Machine
end

