-- ==== Sys2Proof/Tests/Slice0.lean ====
section
/-!
SUPPORT. Tests. Expected results are those of spec/95_test_vectors.md or of the rule named, worked by hand; none is the
model's own answer. The `witness_` theorems show, for each statement of Certificates/Slice0/Obligations.lean that has
hypotheses, a concrete state and operands that meet them.
-/

namespace Sys2Proof.Tests

open Sys2Proof.Machine

/-! ### Small states -/

/-- A call in RUN of `len` bytes `inp`, at cursors `ic` and `oc`, with room for `cap` characters. -/
def running (len ic oc cap : Nat) (inp : List Byte) : State :=
  { State.reset with phase := .run, len := len, ic := ic, oc := oc, cap := cap, inMem := Memory.ofBytes inp }

/-- A call of `len` bytes `inp` that has finished with count `n`. -/
def finished (len n cap : Nat) (inp : List Byte) : State :=
  { running len len n cap inp with phase := .done, cnt := n }

/-- Whether an answer is a next value that passes `p`. -/
def nextAnd {α : Type} (o : Answer α) (p : α → Bool) : Bool :=
  match o with
  | .next a => p a
  | .fault _ => false
  | .refused _ => false

/-- Whether an answer is the fault `r`. -/
def faultIs {α : Type} (o : Answer α) (r : Fault) : Bool :=
  match o with
  | .fault q => decide (q = r)
  | _ => false

/-- Whether an answer is the refusal `r`. -/
def refusedIs {α : Type} (o : Answer α) (r : Refusal) : Bool :=
  match o with
  | .refused q => decide (q = r)
  | _ => false

/-- A launch of `len` bytes at addresses `a` (input) and `b` (output). -/
def launch (len a b cap : Nat) : Launch :=
  { len := len, inBase := a, outBase := b, cap := cap, input := List.replicate len 0x41, output := [] }

/-- Configuration X of Part 7. -/
def configX : TableB := { sFull := 84, cFull := 0x20, sTail := 83, cTail := 0x20 }

/-- Configuration Y of Part 7. -/
def configY : TableB := { sFull := 83, cFull := 0x20, sTail := 83, cTail := 0x7E }

/-! ### Well-formedness: a term that passes and one that each check refuses (R90, R91) -/

theorem test_listing_ok : (Listing.mk 5 [.encFull, .encTail1, .encFinish]).wellFormed = true := by decide
theorem test_listing_refuses_missing_full :
    (Listing.mk 8 [.encFull, .encFinish]).fullLinesOk = false := by decide
theorem test_listing_refuses_wrong_tail :
    (Listing.mk 5 [.encFull, .encTail2, .encFinish]).endLinesOk = false := by decide
theorem test_listing_refuses_no_finish :
    (Listing.mk 4 [.encFull]).wellFormed = false := by decide
/-- Table N of Part 5, rows 0 and 13. -/
theorem test_expansion :
    expansion 0 = [.encFinish] ∧
    expansion 13 = [.encFull, .encFull, .encFull, .encTail1, .encFinish] := by decide

/-! ### Decoding: the words of R81, bit by bit (Table D of Part 5) -/

theorem test_decode_full :
    decode 0b100#3 = .encFull ∧ decode 0b101#3 = .encFull ∧ decode 0b110#3 = .encFull ∧
    decode 0b111#3 = .encFull := by decide
theorem test_decode_tails :
    decode 0b001#3 = .encTail1 ∧ decode 0b010#3 = .encTail2 ∧ decode 0b011#3 = .encTail3 := by decide
theorem test_decode_finish : decode 0b000#3 = .encFinish := by decide
theorem test_decode_refuses_no_byte : decodeBytes [] = .error .noByte := by decide
theorem test_decode_refuses_high_bit : decodeBytes [0x08] = .error .notSelector := by decide
/-- Each row of the table is the first operation to run after reset when its word is placed. -/
theorem test_fetch_each_row :
    ([(4, Instr.encFull), (7, .encFull), (1, .encTail1), (2, .encTail2), (3, .encTail3), (0, .encFinish)].all fun r =>
      decide (decodeTableWord 8 r.1 = some r.2) &&
      nextAnd (selected (State.reset.withFetchWord 8 r.1)) (fun i => decide (i = some r.2)) &&
      nextAnd (step (State.reset.withFetchWord 8 r.1)) (fun _ => true)) = true := by decide
/-- Table D of Part 5: the selector of each number of remaining bytes. -/
theorem test_selector :
    [0, 1, 2, 3, 4, 5, 6, 7, 8].map selectorOf =
      [0b000#3, 0b001#3, 0b010#3, 0b011#3, 0b100#3, 0b101#3, 0b110#3, 0b111#3, 0b100#3] := by decide

/-! ### The pure functions -/

/-- W3, W4, W6, W13 of Part 2. -/
theorem test_word_parser :
    parseWord [0x12, 0x34, 0x56, 0x78] = 0x12345678 ∧ parseWord [0x78, 0x56, 0x34, 0x12] = 0x78563412 ∧
    parseWord [0x41, 0x42] = 0x41420000 ∧ parseWord [0x00] = 0 := by decide
/-- R144: 2147483647, 4280451249, 4280451250 and 4294967295. -/
theorem test_quintet_boundaries :
    ([0x7FFFFFFF, 0xFF2280B1, 0xFF2280B2, 0xFFFFFFFF].map fun v : Word32 =>
      [digit0 v, digit1 v, digit2 v, digit3 v, digit4 v]) =
    [[41, 11, 69, 48, 42], [81, 84, 84, 84, 84], [82, 0, 0, 0, 0], [82, 23, 54, 12, 0]] := by decide
/-- Q5 of Part 3, with its remainders. -/
theorem test_quintet_remainders :
    rem1 0xCAFEBABE = 12650957 ∧ rem2 0xCAFEBABE = 368457 ∧ rem3 0xCAFEBABE = 7207 ∧
    digit3 0xCAFEBABE = 84 := by decide
/-- L2 to L12 of Part 4, at the edges of the ranges of Table A. -/
theorem test_table_a :
    [9, 10, 35, 36, 61, 62, 71, 80, 81, 82, 83, 84].map lutA =
      [0x39, 0x41, 0x5A, 0x61, 0x7A, 0x21, 0x2D, 0x60, 0x7B, 0x2F, 0x7D, 0x7E] := by decide
/-- Part 4: 85 entries whose codes sum to 6852. -/
theorem test_table_a_sum :
    lutATable.length = 85 ∧ (lutATable.map BitVec.toNat).sum = 6852 := by decide
/-- Table N of Part 5, rows 0 to 5, 13 and 1001. -/
theorem test_counts :
    [0, 1, 2, 3, 4, 5, 13, 1001].map nOut = [0, 2, 3, 4, 5, 7, 17, 1252] ∧
    [0, 1, 2, 3, 4, 5, 13, 1001].map capReq = [0, 5, 5, 5, 5, 10, 20, 1255] := by decide

/-! ### Characters under the configurations of Part 7 -/

/-- F3, B2 and B3. -/
theorem test_full_chars_X :
    fullGroupChars configX 0x12345678 = [0x35, 0x3B, 0x52, 0x74, 0x4C] ∧
    fullGroupChars configX 0x031C84B0 = [0x30, 0x20, 0x20, 0x20, 0x20] ∧
    fullGroupChars configX 0xFF2280B1 = [0x7B, 0x20, 0x20, 0x20, 0x20] := by decide
/-- B6 and B7: the same input under two configurations. -/
theorem test_full_chars_differ_by_configuration :
    fullGroupChars configY 83 = [0x30, 0x30, 0x30, 0x30, 0x20] ∧
    fullGroupChars configX 83 = [0x30, 0x30, 0x30, 0x30, 0x7D] := by decide
/-- T1, T2, T3 of Part 6. -/
theorem test_tail_chars_X :
    tailGroupChars configX 1 0x41000000 = [0x4B, 0x3E] ∧
    tailGroupChars configX 2 0x41420000 = [0x4B, 0x2F, 0x25] ∧
    tailGroupChars configX 3 0x41424300 = [0x4B, 0x2F, 0x28, 0x5F] := by decide
/-- The last paragraph of Part 7: the 2-byte tail 03 14, under X and under a configuration with `S_TAIL = 84`. -/
theorem test_tail_chars_divergent :
    tailGroupChars configX 2 0x03140000 = [0x30, 0x7E, 0x37] ∧
    tailGroupChars { sFull := 1, cFull := 0x21, sTail := 84, cTail := 0x20 } 2 0x03140000 = [0x30, 0x20, 0x37] := by
  decide
/-- P6 of Part 9: the text of "Hello, world!" (no digit of it is 83 or 84). -/
theorem test_text_P6 :
    encodeText configX [0x48, 0x65, 0x6C, 0x6C, 0x6F, 0x2C, 0x20, 0x77, 0x6F, 0x72, 0x6C, 0x64, 0x21] =
      [0x4E, 0x4D, 0x26, 0x71, 0x6E, 0x5A, 0x21, 0x39, 0x32, 0x70, 0x5A, 0x2A, 0x70, 0x76, 0x38, 0x41, 0x70] := by
  decide

/-! ### The operations, one step each -/

/-- P3: the full group FF FF FF FF; position 1 is `'/'`. -/
theorem test_exec_full :
    nextAnd (exec .encFull (running 5 0 0 10 [0xFF, 0xFF, 0xFF, 0xFF, 0x41]))
      (fun t => t.ic == 4 && t.oc == 5 && t.outMem.read 0 == some 0x2F && t.outMem.read 5 == none) = true := by decide
/-- X2 of Part 8: with `CAP` = 4 a model that admits the launch faults at index 4. -/
theorem test_exec_full_overflow :
    faultIs (exec .encFull (running 4 0 0 4 [0, 0, 0, 0])) .outputOverflow = true := by decide
/-- R110: with `OC` past its place a write would go to index 5 = `N_out(4)`, inside `CAP`. -/
theorem test_exec_past_count :
    refusedIs (exec .encFull (running 4 0 1 10 [0, 0, 0, 0])) .writePastCount = true := by decide
/-- P3: the tail 41 after one full group; position 1 is `'K'`. -/
theorem test_exec_tail1 :
    nextAnd (exec .encTail1 (running 5 4 5 10 [0xFF, 0xFF, 0xFF, 0xFF, 0x41]))
      (fun t => t.ic == 5 && t.oc == 7 && t.outMem.read 5 == some 0x4B && t.outMem.read 7 == none) = true := by decide
/-- P5: the tail 69 73; position 1 is `'X'`. -/
theorem test_exec_tail2 :
    nextAnd (exec .encTail2 (running 6 4 5 10 [0x4D, 0x61, 0x6E, 0x20, 0x69, 0x73]))
      (fun t => t.ic == 6 && t.oc == 8 && t.outMem.read 5 == some 0x58 && t.outMem.read 8 == none) = true := by decide
/-- P4: the tail 05 06 07; position 1 is `'1'`; 3 reads and 4 writes. -/
theorem test_exec_tail3 :
    nextAnd (exec .encTail3 (running 7 4 5 10 [0x01, 0x02, 0x03, 0x04, 0x05, 0x06, 0x07]))
      (fun t => t.ic == 7 && t.oc == 9 && t.outMem.read 5 == some 0x31 && t.accesses.length == 7) = true := by decide
/-- P3: the finish latches 7. -/
theorem test_exec_finish :
    nextAnd (exec .encFinish (running 5 5 7 10 [])) (fun t => t.cnt == 7 && t.phase == .done) = true := by decide
/-- R81: an operation that is not the selected one is refused. -/
theorem test_exec_not_selected :
    refusedIs (exec .encTail1 (running 5 0 0 10 [])) .notEnabled = true ∧
    refusedIs (exec .encFinish (running 5 0 0 10 [])) .notEnabled = true := by decide

/-! ### The host's moves -/

/-- X1, X3, X4 of Part 8, with 32-bit registers. -/
theorem test_start_capacity :
    refusedIs (startWith (.bits 32 (by decide)) 32 (launch 5 0 100 7) State.reset) .capacityPremise = true ∧
    refusedIs (startWith (.bits 32 (by decide)) 32 (launch 1 0 100 2) State.reset) .capacityPremise = true ∧
    nextAnd (startWith (.bits 32 (by decide)) 32 (launch 0 0 100 0) State.reset) (fun t => t.phase == .run) = true := by
  decide
/-- X5, X6, X7 of Part 8: the largest length that 32 bits allow. -/
theorem test_start_width :
    fitsWidth (.bits 32 (by decide)) (nOut 3435973836) = true ∧
    fitsWidth (.bits 32 (by decide)) (nOut 3435973837) = false ∧
    fitsWidth (.bits 32 (by decide)) (nOut 4294967295) = false := by decide
/-- X8 of Part 8: `OUT_BASE = IN_BASE + 2`, `len = 8`. -/
theorem test_start_alias :
    refusedIs (startWith .unbounded 32 (launch 8 0 2 10) State.reset) .aliasPremise = true := by decide
/-- Log 20: with 8-bit addresses the last cell of `OUT` at 255 has an address, at 256 it has none. -/
theorem test_start_address :
    nextAnd (startWith .unbounded 8 (launch 5 0 246 10) State.reset) (fun t => t.phase == .run) = true ∧
    refusedIs (startWith .unbounded 8 (launch 5 0 247 10) State.reset) .addressWidth = true := by decide
/-- X9 of Part 8, and a launch without its bytes (R223 item 1). -/
theorem test_start_refused :
    refusedIs (startWith .unbounded 32 (launch 1 0 8 5) (running 4 0 0 5 [])) .startDuringRun = true ∧
    refusedIs (startWith .unbounded 32 { launch 2 0 8 5 with input := [0] } State.reset) .inputPremise = true := by decide
/-- X10 of Part 8. -/
theorem test_count_unreadable :
    faultIs (readCount State.reset) .countUnreadable = true ∧
    faultIs (readCount (running 4 0 0 5 [])) .countUnreadable = true := by decide
/-- X11 of Part 8: RESET after the first group of a call of 8 bytes: IDLE, and the cells from 10 on as before. -/
theorem test_reset_during_run :
    nextAnd (step { running 8 4 5 12 [] with agenda := [.host .reset], outMem := [(11, 0xEE)] })
      (fun t => t.phase == .idle && t.outMem.read 11 == some 0xEE && t.draws == 10) = true := by decide
/-- R202: a RESET that coincides with a START, or with the last step of a call, wins. -/
theorem test_reset_wins :
    nextAnd (step { State.reset with agenda := [.resetWith (.start (launch 0 0 0 0))] }) (fun t => t.phase == .idle) = true ∧
    nextAnd (step { running 5 5 7 10 [] with agenda := [.resetWith .encoderStep] }) (fun t => t.phase == .idle) = true := by
  decide
/-- R226, R227: the host may not touch the buffers in RUN. -/
theorem test_buffers_busy :
    refusedIs (hostWriteIn 0 1 (running 4 0 0 5 [0, 0, 0, 0])) .bufferBusy = true ∧
    refusedIs (hostReadOut 0 (running 4 0 0 5 [0, 0, 0, 0])) .bufferBusy = true := by decide
/-- R107: the whole result in DONE. -/
theorem test_read_text :
    nextAnd (readText { finished 1 2 5 [0] with outMem := [(0, 0x30), (1, 0x30)] }) (fun cs => cs == [0x30, 0x30]) =
      true := by decide

/-! ### Witnesses: the hypotheses of the statements can be met -/

/-- SelectorReadsBytesLeft, StepSelection, StepRunsDecodedOperation: in RUN with 4, 1, 2, 3 and 0 bytes left. -/
theorem witness_step_selection :
    ∀ r ∈ [(4, Instr.encFull), (1, .encTail1), (2, .encTail2), (3, .encTail3), (0, .encFinish)],
      let s := running (4 + r.1) 4 5 10 []
      s.phase = .run ∧ s.ic ≤ s.len ∧ s.len - s.ic = r.1 ∧ decode s.sel = r.2 ∧ s.agenda = [] ∧
      { s with agenda := [Turn.encoder] }.agenda = [.encoder] := by decide
/-- SelectorFollowsGroups: between groups with a full group to do, and before the tail with none. -/
theorem witness_selector_groups :
    let s := running 9 4 5 15 []
    let u := running 9 8 10 15 []
    s.CallInv ∧ s.phase = .run ∧ s.sel.getLsbD 2 = true ∧
    u.CallInv ∧ u.phase = .run ∧ u.sel.getLsbD 2 = false ∧ u.ic % 4 = 0 := by decide
/-- StepSelection, third clause: two different states that agree in `PHASE`, `LEN` and `IC`. -/
theorem witness_same_selection :
    let s := running 5 4 5 10 [1, 2, 3, 4, 5]
    let t := running 5 4 9 99 []
    s ≠ t ∧ s.phase = t.phase ∧ s.len = t.len ∧ s.ic = t.ic := by decide
/-- EncoderWaitsOutsideRun: IDLE and DONE. -/
theorem witness_waits :
    State.reset.phase ≠ .run ∧ (finished 5 7 10 []).phase ≠ .run ∧ (finished 5 7 10 []).agenda = [] := by decide
/-- CallFollowsExpansion, RunningCallProgresses, CallReachesDone: a call between its groups, at its start and its end. -/
theorem witness_running_call :
    ∀ s ∈ [running 5 0 0 10 [1, 2, 3, 4, 5], running 5 4 5 10 [1, 2, 3, 4, 5], running 5 5 7 10 [1, 2, 3, 4, 5]],
      s.CallInv ∧ s.BufferInv ∧ s.phase = .run ∧ s.agenda = [] := by decide
/-- CallFollowsExpansion: the operation answers a state that stays in RUN, and one that leaves it. -/
theorem witness_expansion_steps :
    nextAnd (exec .encFull (running 5 0 0 10 [1, 2, 3, 4, 5])) (fun t => t.phase == .run) = true ∧
    nextAnd (exec .encFinish (running 5 5 7 10 [1, 2, 3, 4, 5])) (fun t => t.phase == .done) = true := by decide
/-- WordByOneFormula (1 and 4 bytes) and WordLanesGiveBytesBack (1 and 3 bytes). -/
theorem witness_group_sizes :
    (1 ≤ ([0xFF] : List Byte).length ∧ ([0xFF] : List Byte).length ≤ 3) ∧
    (1 ≤ ([1, 2, 3] : List Byte).length ∧ ([1, 2, 3] : List Byte).length ≤ 3) ∧
    (1 ≤ ([1, 2, 3, 4] : List Byte).length ∧ ([1, 2, 3, 4] : List Byte).length ≤ 4) := by decide
/-- QuintetIsBase85Numeral: the digits of 0xFFFFFFFF meet the uniqueness hypotheses; and FirstDigitAtMost82's word. -/
theorem witness_unique_digits :
    (0xFFFFFFFF : Word32).toNat = 82 * 52200625 + 23 * 614125 + 54 * 7225 + 12 * 85 + 0 ∧
    (digit0 0xFFFFFFFF).val = 82 := by decide
/-- QuintetIsBase85Numeral, second clause: two words (one and the same) with equal digits. -/
theorem witness_equal_digits :
    digit0 0xCAFEBABE = digit0 3405691582 ∧ digit1 0xCAFEBABE = digit1 3405691582 ∧
    digit2 0xCAFEBABE = digit2 3405691582 ∧ digit3 0xCAFEBABE = digit3 3405691582 ∧
    digit4 0xCAFEBABE = digit4 3405691582 := by decide
/-- TableAByFormula: a digit at each edge of each clause. -/
theorem witness_table_a_ranges :
    (9 : Digit).val ≤ 9 ∧ (10 ≤ (10 : Digit).val ∧ (35 : Digit).val ≤ 35) ∧
    (36 ≤ (36 : Digit).val ∧ (61 : Digit).val ≤ 61) ∧ 62 ≤ (62 : Digit).val ∧ 62 ≤ (84 : Digit).val := by decide
/-- TableBAgreesAndHoldsSpace, TableBZeroDistinctPrintable: a digit other than the slot, and two entries that differ. -/
theorem witness_table_b :
    (0 : Digit) ≠ configX.sFull ∧ lutBFull configX 84 ≠ lutBTail configX 84 ∧
    lutBFull configX 83 ≠ lutBTail configX 83 := by decide
/-- TailAgreesWithPaddedGroup: the tail 41 42 43 at position 4, its digit away from the slots. -/
theorem witness_tail_against_padded :
    let v := parseWord [0x41, 0x42, 0x43]
    [digit0 v, digit1 v, digit2 v, digit3 v][3]? = some 79 ∧ (79 : Digit) ≠ configX.sFull ∧
    (79 : Digit) ≠ configX.sTail ∧ 1 ≤ ([0x41, 0x42, 0x43] : List Byte).length ∧
    ([0x41, 0x42, 0x43] : List Byte).length ≤ 3 ∧ 3 ≤ ([0x41, 0x42, 0x43] : List Byte).length := by decide
/-- TailDigitsTellTailsApart: two different tails of 1 and of 3 bytes. -/
theorem witness_two_tails :
    ([0x41] : List Byte).length = 1 ∧ ([0x41] : List Byte) ≠ [0x42] ∧
    ([1, 2, 3] : List Byte).length = 3 ∧ ([1, 2, 3] : List Byte) ≠ [1, 2, 4] := by decide
/-- MemoryPrimitivesAdmitted: the last index below `LEN` and `LEN` itself; the last below `CAP` and `CAP` itself;
and, below `CAP`, the first index at `N_out(LEN)`. -/
theorem witness_primitives :
    let s := running 4 0 0 5 [1, 2, 3, 4]
    (3 < s.len ∧ s.inMem.read 3 = some 4) ∧ s.len ≤ 4 ∧ 4 < s.cap ∧ 4 < nOut s.len ∧ s.cap ≤ 5 ∧
    (running 5 4 5 10 []).cap > 7 ∧ nOut (running 5 4 5 10 []).len ≤ 7 := by decide
/-- FullGroupResult: the last full group of a call with no room to spare. -/
theorem witness_full :
    let s := running 4 0 0 5 [1, 2, 3, 4]
    s.phase = .run ∧ s.ic + 4 ≤ s.len ∧ s.inMem.read s.ic = some 1 ∧ s.inMem.read (s.ic + 1) = some 2 ∧
    s.inMem.read (s.ic + 2) = some 3 ∧ s.inMem.read (s.ic + 3) = some 4 ∧ s.oc + 5 ≤ s.cap ∧ s.oc + 5 ≤ nOut s.len := by decide
/-- ZeroGroupWritesFiveZeros. -/
theorem witness_zero_group :
    let s := running 4 0 0 5 [0, 0, 0, 0]
    s.phase = .run ∧ s.ic + 4 ≤ s.len ∧ (∀ k, k < 4 → s.inMem.read (s.ic + k) = some 0) ∧
    s.oc + 5 ≤ s.cap ∧ s.oc + 5 ≤ nOut s.len := by decide
/-- OneByteTailResult, with a byte 00 and just enough room. -/
theorem witness_tail1 :
    let s := running 5 4 5 7 [1, 2, 3, 4, 0]
    s.phase = .run ∧ s.ic + 1 = s.len ∧ s.inMem.read s.ic = some 0 ∧ s.oc + 2 ≤ s.cap ∧ s.oc + 2 ≤ nOut s.len := by decide
/-- TwoByteTailResult, with bytes 00 00 and with FF FF. -/
theorem witness_tail2 :
    ∀ b ∈ ([0x00, 0xFF] : List Byte),
      let s := running 2 0 0 3 [b, b]
      s.phase = .run ∧ s.ic + 2 = s.len ∧ s.inMem.read s.ic = some b ∧ s.inMem.read (s.ic + 1) = some b ∧
      s.oc + 3 ≤ s.cap ∧ s.oc + 3 ≤ nOut s.len := by decide
/-- ThreeByteTailResult, with bytes 00 00 00 and with FF FF FF. -/
theorem witness_tail3 :
    ∀ b ∈ ([0x00, 0xFF] : List Byte),
      let s := running 3 0 0 4 [b, b, b]
      s.phase = .run ∧ s.ic + 3 = s.len ∧ s.inMem.read s.ic = some b ∧ s.inMem.read (s.ic + 1) = some b ∧
      s.inMem.read (s.ic + 2) = some b ∧ s.oc + 4 ≤ s.cap ∧ s.oc + 4 ≤ nOut s.len := by decide
/-- FinishResult and FinishFrame. -/
theorem witness_finish :
    let s := running 5 5 7 10 []
    s.phase = .run ∧ s.ic = s.len ∧ nextAnd (exec .encFinish s) (fun _ => true) = true := by decide
/-- FinishResult's second clause, GroupOperationsFrame, FullGroupChanges: each group operation answers a next state. -/
theorem witness_group_frames :
    nextAnd (exec .encFull (running 4 0 0 5 [1, 2, 3, 4])) (fun _ => true) = true ∧
    nextAnd (exec .encTail1 (running 1 0 0 2 [1])) (fun _ => true) = true ∧
    nextAnd (exec .encTail2 (running 2 0 0 3 [1, 2])) (fun _ => true) = true ∧
    nextAnd (exec .encTail3 (running 3 0 0 4 [1, 2, 3])) (fun _ => true) = true ∧
    Instr.encTail3 ≠ .encFinish ∧ (running 4 0 0 5 []).oc = 5 * ((running 4 0 0 5 []).ic / 4) := by decide
/-- FalseGuardIsRefused: a state in which every guard is false, and RUN states just beside each guard. -/
theorem witness_false_guards :
    ¬ (State.reset.phase = .run) ∧
    ¬ ((running 3 0 0 5 []).phase = .run ∧ (running 3 0 0 5 []).ic + 4 ≤ (running 3 0 0 5 []).len) ∧
    ¬ ((running 3 0 0 5 []).phase = .run ∧ (running 3 0 0 5 []).ic + 2 = (running 3 0 0 5 []).len) ∧
    ¬ ((running 4 0 0 5 []).phase = .run ∧ (running 4 0 0 5 []).ic + 3 = (running 4 0 0 5 []).len) ∧
    ¬ ((running 1 0 0 5 []).phase = .run ∧ (running 1 0 0 5 []).ic = (running 1 0 0 5 []).len) ∧
    ¬ ((running 2 0 0 5 []).phase = .run ∧ (running 2 0 0 5 []).ic + 1 = (running 2 0 0 5 []).len) := by decide
/-- OutputOverflowFaults: each group operation with one cell too few. -/
theorem witness_overflow :
    ∀ r ∈ [(4, 5), (1, 2), (2, 3), (3, 4)],
      let s := running r.1 0 0 (r.2 - 1) [1, 2, 3, 4]
      s.phase = .run ∧ s.ic + r.1 = s.len ∧ (∀ k, k < r.1 → (s.inMem.read (s.ic + k)).isSome = true) ∧
      s.cap < s.oc + r.2 ∧ s.cap ≤ nOut s.len := by decide
/-- WritePastCountIsRefused: each group operation with its last character at `N_out(LEN)`, inside `CAP`; and
OutputOverflowFaults, second case: `OC` at `CAP`, past `N_out(LEN)`. -/
theorem witness_past_count :
    ∀ r ∈ [(4, 5), (1, 2), (2, 3), (3, 4)],
      let s := running r.1 0 1 10 [1, 2, 3, 4]
      let u := running r.1 0 6 6 [1, 2, 3, 4]
      s.phase = .run ∧ s.ic + r.1 = s.len ∧ (∀ k, k < r.1 → (s.inMem.read (s.ic + k)).isSome = true) ∧
      nOut s.len < s.oc + r.2 ∧ nOut s.len < s.cap ∧ s.oc < s.cap ∧
      (∀ k, k < r.1 → (u.inMem.read (u.ic + k)).isSome = true) ∧ u.cap < u.oc + r.2 ∧ u.cap ≤ u.oc := by decide
/-- UnknownInputByteFaults: each group operation with its last byte unknown. -/
theorem witness_unknown_byte :
    ∀ n ∈ [4, 1, 2, 3],
      let s := running n 0 0 5 ([1, 2, 3, 4].take (n - 1))
      s.phase = .run ∧ s.ic + n = s.len ∧ (∃ k, k < n ∧ s.inMem.read (s.ic + k) = none) := by decide
/-- StartBeginsCall: the premises hold from IDLE (5 bytes, just enough room, buffers side by side, 4-bit registers and
addresses) and from DONE (no byte at all); and one premise fails. -/
theorem witness_start :
    (State.reset.phase = .idle ∧ (finished 5 7 10 []).phase = .done) ∧
    (capReq (launch 5 0 5 10).len ≤ (launch 5 0 5 10).cap ∧ fitsWidth (.bits 4 (by decide)) (nOut 5) = true ∧
      disjointSpans 0 5 5 10 = true ∧ spanFits 4 0 5 = true ∧ spanFits 4 5 10 = true ∧ (launch 5 0 5 10).len ≤ (launch 5 0 5 10).input.length) ∧
    (capReq 0 ≤ 0 ∧ fitsWidth (.bits 1 (by decide)) (nOut 0) = true ∧ disjointSpans 7 0 7 0 = true ∧ spanFits 3 7 0 = true) ∧
    ¬ (capReq 5 ≤ 9) ∧ { State.reset with agenda := [.host (.start (launch 0 0 0 0))] }.agenda =
      [.host (.start (launch 0 0 0 0))] := by decide
/-- StartRefusals: one launch for each clause. -/
theorem witness_start_refusals :
    (running 4 0 0 5 []).phase = .run ∧ State.reset.phase ≠ .run ∧ (launch 5 0 9 9).cap < capReq 5 ∧
    (capReq 5 ≤ 10 ∧ fitsWidth (.bits 2 (by decide)) (nOut 5) = false) ∧
    (fitsWidth .unbounded (nOut 8) = true ∧ capReq 8 ≤ 10 ∧ 7 < 8 ∧ 5 < 10 ∧ 0 + 7 = 2 + 5) ∧
    (disjointSpans 0 5 247 10 = true ∧ 9 < 10 ∧ 2 ^ 8 ≤ 247 + 9) ∧ 2 ^ 8 ≤ 256 ∧ (4 < 5 ∧ 2 ^ 8 ≤ 252 + 4) ∧
    (capReq 2 ≤ 5 ∧ fitsWidth .unbounded (nOut 2) = true ∧ disjointSpans 0 2 8 5 = true ∧
      spanFits 8 0 2 = true ∧ spanFits 8 8 5 = true ∧
      { launch 2 0 8 5 with input := [0] }.input.length < 2) := by decide
/-- ResultStaysReadable: DONE with a known first character; another phase; turns that read, that wait and that write. -/
theorem witness_result :
    let s := { finished 1 2 5 [0] with outMem := [(0, 0x30)], agenda := [.host .result] }
    let u := { finished 1 2 5 [0] with outMem := [(0, 0x30)], agenda := [.host (.readOut 0)] }
    s.phase = .done ∧ 0 < s.cap ∧ s.outMem.read 0 = some 0x30 ∧ State.reset.phase ≠ .done ∧
    nextAnd (step s) (fun _ => true) = true ∧ nextAnd (step u) (fun _ => true) = true ∧
    s.nextMove ≠ some .reset ∧ s.nextMove = some .result := by decide
/-- ResetEndsCall: a RESET on the agenda in RUN and in DONE, and one that coincides with a step of the encoder. -/
theorem witness_reset :
    { running 5 4 5 10 [] with agenda := [.host .reset] }.agenda = [.host .reset] ∧
    { running 5 4 5 10 [] with agenda := [.resetWith .encoderStep] }.agenda = [.resetWith .encoderStep] ∧
    { finished 5 7 10 [] with agenda := [.host .reset] }.phase ≠ .run ∧ nOut 5 ≤ 7 := by decide
/-- BuffersClosedDuringRun. -/
theorem witness_busy :
    ∀ m ∈ [HostMove.writeIn 0 1, .writeOut 0 1, .readIn 0, .readOut 0],
      let s := { running 5 4 5 10 [] with agenda := [.host m] }
      s.phase = .run ∧ s.agenda = [.host m] := by decide
/-- HostWritesBuffersOutsideRun: the first cell of `IN` and the last of `OUT` in DONE. -/
theorem witness_host_writes :
    let s := finished 5 7 10 [1, 2, 3, 4, 5]
    s.phase ≠ .run ∧ (s.inMem.read 0).isSome = true ∧ 9 < s.cap := by decide
/-- PhaseTransitions: a step that changes the phase by RESET and one by the encoder (START's is `test_start_capacity`). -/
theorem witness_transitions :
    nextAnd (step { running 5 0 0 10 [] with agenda := [.host .reset] }) (fun t => t.phase != .run) = true ∧
    nextAnd (step (running 5 5 7 10 [])) (fun t => t.phase != .run) = true ∧
    nextAnd (startWith .unbounded 32 (launch 0 0 0 0) State.reset) (fun t => t.phase != .idle) = true := by decide
/-- RegisterWriters: steps that move the cursors and that write `CNT`, with no RESET and no START. -/
theorem witness_register_writers :
    nextAnd (step (running 4 0 0 5 [1, 2, 3, 4])) (fun t => t.ic != 0 && t.oc != 0) = true ∧
    nextAnd (step (running 4 4 5 5 [1, 2, 3, 4])) (fun t => t.cnt != 0) = true ∧
    (running 4 0 0 5 []).nextMove = none := by decide
/-- CallInvariantKept, MemoryFormKept, AccessOrderKept: a started call that meets the invariants and steps. -/
theorem witness_invariants :
    let s := running 5 0 0 10 [1, 2, 3, 4, 5]
    s.CallInv ∧ s.MemoryInv ∧ s.AccessInv ∧ s.BufferInv ∧ nextAnd (step s) (fun _ => true) = true := by decide
/-- LaunchPremisesKept: its premises hold of a call of no byte whatever the widths, and such a call steps. -/
theorem witness_launch_premises :
    (running 0 0 0 0 []).LaunchInv Config.lengthWidth Config.addressWidth ∧ (running 0 0 0 0 []).BufferInv ∧
    nextAnd (step (running 0 0 0 0 [])) (fun _ => true) = true := by
  have hbase := Nat.two_pow_pos Config.addressWidth
  refine ⟨fun _ => ⟨?_, by decide, hbase, fun i hi => absurd hi (Nat.not_lt_zero i), hbase,
    fun j hj => absurd hj (Nat.not_lt_zero j)⟩, by decide, by decide⟩
  cases Config.lengthWidth with
  | unbounded => rfl
  | bits n _ => exact decide_eq_true (Nat.two_pow_pos n)
/-- CallTouchesEachCellOnce, second part: a call of one byte that has finished, with its three accesses. -/
theorem witness_finished_call :
    let s := { finished 1 2 5 [0] with accesses := [.read 0 0, .write 0 0x30, .write 1 0x30] }
    s.CallInv ∧ s.AccessInv ∧ s.phase = .done := by decide
/-- TableWordsDecode: the least and the largest byte with a bit set above the three of `SEL`. -/
theorem witness_high_bytes : 8 ≤ (0x08 : Byte).toNat ∧ 8 ≤ (0xFF : Byte).toNat := by decide
/-- CallWritesItsText, ResultDependsOnInputOnly: two different calls just started on the same five bytes. -/
theorem witness_started_calls :
    let s := running 5 0 0 10 [1, 2, 3, 4, 5]
    let u := { running 5 0 0 12 [1, 2, 3, 4, 5] with outMem := [(3, 0xEE)] }
    s.BufferInv ∧ u.BufferInv ∧ s.phase = .run ∧ u.phase = .run ∧ s.ic = 0 ∧ s.oc = 0 ∧ u.ic = 0 ∧ u.oc = 0 ∧
    s.agenda = [] ∧ u.agenda = [] ∧ s.len = u.len ∧ (∀ i, i < s.len → s.inMem.read i = u.inMem.read i) ∧ s ≠ u := by
  decide
/-- TextAgainstUndivergedText: an input with a full group and a tail has a character of each kind. -/
theorem witness_undiverged :
    (undivergedText [0, 0, 0, 0x54, 0x41])[0]? = some 0x30 ∧
    ((undivergedText [0, 0, 0, 0x54, 0x41])[4]? = some 0x7E ∧ 4 % 5 ≠ 0 ∧ 4 < 5 * (5 / 4)) ∧
    ((undivergedText [0, 0, 0, 0x54, 0x41])[6]? = some 0x3E ∧ 6 % 5 ≠ 0 ∧ 5 * (5 / 4) ≤ 6) := by decide
/-- TextOfConcatenation: a first part of 4 bytes. -/
theorem witness_concatenation : ([1, 2, 3, 4] : List Byte).length % 4 = 0 := by decide

end Sys2Proof.Tests
end

section
/-!
PROOFS. What each operation answers outside its `require` line (00_scope.md R10; log 17).
-/

namespace Sys2Proof.Machine

/-- ENC.FULL outside its `require` line (R171). -/
theorem execEncFull_refused {s : State} (h : ¬ (s.phase = .run ∧ s.ic + 4 ≤ s.len)) :
    execEncFull s = .refused .notEnabled :=
  if_neg h

/-- ENC.TAILr outside its `require` line (R181), for every `r`. -/
theorem encodeTail_refused {r : Nat} {s : State} (h : ¬ (s.phase = .run ∧ s.ic + r = s.len)) :
    encodeTail r s = .refused .notEnabled :=
  if_neg h

/-- ENC.FINISH outside its `require` line (R105). -/
theorem execEncFinish_refused {s : State} (h : ¬ (s.phase = .run ∧ s.ic = s.len)) :
    execEncFinish s = .refused .notEnabled :=
  if_neg h

/-- Settles O34: `exec` hands each operation to its own meaning, which tests its guard before anything else; the three
tails are one operation at `r` = 1, 2, 3. -/
theorem falseGuardIsRefused : Obligations.FalseGuardIsRefused := by
  intro s
  exact ⟨execEncFull_refused, encodeTail_refused, encodeTail_refused, encodeTail_refused, execEncFinish_refused⟩

end Sys2Proof.Machine
end

section
/-!
PROOFS. The registers, the phase and the host's writes to the buffers (10_state.md R22 to R27, R42, R43).
-/

namespace Sys2Proof.Machine

/-! ### What the host reads -/

/-- The host reads a cell of `IN` exactly outside RUN and where the buffer has it (R42). -/
theorem hostReadIn_eq_next {i : Nat} {b : Byte} {s : State} :
    hostReadIn i s = .next b ↔ s.phase ≠ .run ∧ s.inMem.read i = some b := by
  unfold hostReadIn
  split_ifs with h
  · simp [h]
  · cases s.inMem.read i <;> simp [h]

/-- The host reads a cell of `OUT` exactly outside RUN, below `CAP` and where a value is known (R42, R107). -/
theorem hostReadOut_eq_next {j : Nat} {c : Byte} {s : State} :
    hostReadOut j s = .next c ↔ s.phase ≠ .run ∧ j < s.cap ∧ s.outMem.read j = some c := by
  unfold hostReadOut
  split_ifs with hrun hcap
  · simp [hrun]
  · cases s.outMem.read j <;> simp [hrun, hcap]
  · simp [hcap]

/-- Settles O43: the step is the host's write on the state one turn on, and a read at the written cell returns the byte,
at every other cell what was there. -/
theorem hostWritesBuffersOutsideRun : Obligations.HostWritesBuffersOutsideRun := by
  intro s ts a b hrun
  constructor
  · intro hagenda hcell
    refine ⟨(s.withAgenda ts).withIn a b, ?_, ?_, fun k hk => Memory.read_write_other s.inMem b hk, rfl⟩
    · rw [step_of_agenda_host hagenda]
      exact hostWriteIn_eq_next.2 ⟨hrun, hcell, rfl⟩
    · exact hostReadIn_eq_next.2 ⟨hrun, Memory.read_write_same s.inMem a b⟩
  · intro hagenda hcap
    refine ⟨(s.withAgenda ts).withOut a b, ?_, ?_, fun k hk => Memory.read_write_other s.outMem b hk, rfl⟩
    · rw [step_of_agenda_host hagenda]
      exact hostWriteOut_eq_next.2 ⟨hrun, hcap, rfl⟩
    · exact hostReadOut_eq_next.2 ⟨hrun, hcap, Memory.read_write_same s.outMem a b⟩

/-! ### The encoder outside RUN -/

/-- Outside RUN the encoder waits: the state stays (R215, log 9). -/
theorem encoderStep_hold {s : State} (h : s.phase ≠ .run) : encoderStep s = .next s := by
  rw [encoderStep, selected_hold h, andThen_of_next]

/-- Settles O8: nothing is selected outside RUN, whether the encoder moves by an empty agenda or by its turn. -/
theorem encoderWaitsOutsideRun : Obligations.EncoderWaitsOutsideRun := by
  intro s hrun
  constructor
  · intro hagenda
    rw [step_of_agenda_nil hagenda, encoderStep_hold hrun]
  · intro ts hagenda
    rw [step_of_agenda_encoder hagenda]
    exact encoderStep_hold hrun

/-- Settles O44: the reset state is in IDLE with an empty agenda, so its step is the encoder's wait. -/
theorem resetState : Obligations.ResetState := by
  have hidle : State.reset.phase ≠ .run := by decide
  refine ⟨rfl, fun a => ⟨Memory.read_nil a, Memory.read_nil a⟩, ?_, rfl⟩
  rw [step_of_agenda_nil rfl, encoderStep_hold hidle]

/-! ### Who writes PHASE and the registers -/

/-- `t` has the phase and the four registers of `s` (R22 to R25, R27). -/
structure State.SameRegisters (s t : State) : Prop where
  phase : t.phase = s.phase
  len : t.len = s.len
  ic : t.ic = s.ic
  oc : t.oc = s.oc
  cnt : t.cnt = s.cnt

/-- A group operation moves the two cursors only: `PHASE`, `LEN` and `CNT` stay (R171, R181). -/
theorem encodeGroup_keeps_phase_len_cnt {n : Nat} {chars : Word32 → List Byte} {s t : State}
    (h : encodeGroup n chars s = .next t) : t.phase = s.phase ∧ t.len = s.len ∧ t.cnt = s.cnt := by
  obtain ⟨bs, -, -, -, rfl⟩ := encodeGroup_eq_next.1 h
  exact ⟨rfl, rfl, rfl⟩

/-- An operation on the registers: with bytes left it moves at most the cursors, with none left it ends the call. -/
theorem exec_registers {i : Instr} {s t : State} (h : exec i s = .next t) :
    s.phase = .run ∧
    ((s.ic < s.len ∧ t.phase = s.phase ∧ t.len = s.len ∧ t.cnt = s.cnt) ∨ (s.ic = s.len ∧ t = s.finish)) := by
  obtain ⟨hrun, ⟨-, hleft, hgroup⟩ | ⟨r, hpos, -, hleft, hgroup⟩ | ⟨-, hnone, hfinish⟩⟩ := exec_cases h
  · exact ⟨hrun, .inl ⟨by omega, encodeGroup_keeps_phase_len_cnt hgroup⟩⟩
  · exact ⟨hrun, .inl ⟨by omega, encodeGroup_keeps_phase_len_cnt hgroup⟩⟩
  · exact ⟨hrun, .inr ⟨hnone, hfinish⟩⟩

/-- A move of the host on the registers: RESET and START write them, every other move keeps them all. -/
theorem hostMove_registers {m : HostMove} {s t : State} (h : hostMove m s = .next t) :
    s.SameRegisters t ∨ (m = .reset ∧ t = s.afterReset) ∨
    (∃ l, m = .start l ∧ s.phase ≠ .run ∧ t = s.launched l) := by
  obtain rfl | hreset | ⟨l, rfl, hstart⟩ | ⟨i, b, -, -, -, rfl⟩ | ⟨j, c, -, -, -, rfl⟩ := hostMove_cases h
  · exact .inl ⟨rfl, rfl, rfl, rfl, rfl⟩
  · exact .inr (.inl hreset)
  · obtain ⟨hrun, -, -, -, -, -, ht⟩ := startWith_eq_next.1 hstart
    exact .inr (.inr ⟨l, rfl, hrun, ht⟩)
  · exact .inl ⟨rfl, rfl, rfl, rfl, rfl⟩
  · exact .inl ⟨rfl, rfl, rfl, rfl, rfl⟩

/-- All that a step can do to `PHASE` and the registers: nothing, a RESET, a START from outside RUN, a group operation
with bytes left, or the finish with none left. -/
theorem step_registers {s t : State} (h : step s = .next t) :
    s.SameRegisters t ∨
    (s.nextMove = some .reset ∧ t = s.turnTaken.afterReset) ∨
    (∃ l, s.nextMove = some (.start l) ∧ s.phase ≠ .run ∧ t = s.turnTaken.launched l) ∨
    (s.nextMove = none ∧ s.phase = .run ∧ s.ic < s.len ∧ t.phase = s.phase ∧ t.len = s.len ∧ t.cnt = s.cnt) ∨
    (s.nextMove = none ∧ s.phase = .run ∧ s.ic = s.len ∧ t = s.turnTaken.finish) := by
  obtain ⟨m, hmove, hhost⟩ | ⟨hmove, henc⟩ := step_cases h
  · obtain ⟨hp, hl, hi, ho, hc⟩ | ⟨rfl, ht⟩ | ⟨l, rfl, hrun, ht⟩ := hostMove_registers hhost
    · exact .inl ⟨hp, hl, hi, ho, hc⟩
    · exact .inr (.inl ⟨hmove, ht⟩)
    · exact .inr (.inr (.inl ⟨l, hmove, hrun, ht⟩))
  · obtain ⟨-, rfl⟩ | ⟨-, -, hexec⟩ := encoderStep_cases henc
    · exact .inl ⟨rfl, rfl, rfl, rfl, rfl⟩
    · obtain ⟨hrun, ⟨hleft, hkept⟩ | ⟨hnone, ht⟩⟩ := exec_registers hexec
      · exact .inr (.inr (.inr (.inl ⟨hmove, hrun, hleft, hkept⟩)))
      · exact .inr (.inr (.inr (.inr ⟨hmove, hrun, hnone, ht⟩)))

/-- Settles O45: of the five things a step can do to the registers, only RESET, START and the finish change `PHASE`. -/
theorem phaseTransitions : Obligations.PhaseTransitions := by
  refine ⟨rfl, rfl, rfl, fun s t hstep hchanged => ?_⟩
  obtain hsame | ⟨hmove, rfl⟩ | ⟨l, hmove, hrun, rfl⟩ | ⟨-, -, -, hphase, -, -⟩ | ⟨hmove, hrun, hnone, rfl⟩ :=
    step_registers hstep
  · exact absurd hsame.phase hchanged
  · exact .inl ⟨State.afterReset_phase _, hmove⟩
  · exact .inr (.inl ⟨State.launched_phase _ l, hrun, l, hmove⟩)
  · exact absurd hphase hchanged
  · exact .inr (.inr ⟨State.finish_phase _, hrun, hnone, hmove⟩)

/-- Settles O46: with RESET and START ruled out, a step keeps the registers, moves the cursors with bytes left, or
latches `CNT` with none left. -/
theorem registerWriters : Obligations.RegisterWriters := by
  intro s t hstep hnoReset hnoStart
  obtain ⟨-, hl, hi, ho, hc⟩ | ⟨hmove, -⟩ | ⟨l, hmove, -, -⟩ | ⟨hmove, hrun, hleft, -, hl, hc⟩ |
    ⟨-, hrun, hnone, rfl⟩ := step_registers hstep
  · exact ⟨hl, fun hmoved => absurd hmoved (by simp [hi, ho]), fun hlatched => absurd hc hlatched⟩
  · exact absurd hmove hnoReset
  · exact absurd hmove (hnoStart l)
  · exact ⟨hl, fun _ => ⟨hrun, hleft, hmove⟩, fun hlatched => absurd hc hlatched⟩
  · exact ⟨rfl, fun hmoved => absurd hmoved (by simp), fun _ => ⟨rfl, hrun, hnone, rfl⟩⟩

end Sys2Proof.Machine
end

section
/-!
PROOFS. The memory primitives and the order of a call's accesses (20_memory.md R52 to R55, R65, R72).
-/

namespace Sys2Proof.Machine

/-! ### The memory primitives -/

/-- `MemRead` at or past `LEN` is refused (R52). -/
theorem memRead_pastLength {s : State} {i : Nat} (h : s.len ≤ i) : memRead s i = .refused .readPastLength :=
  if_neg (Nat.not_lt.2 h)

/-- Settles O24: each primitive answers exactly within its bounds, a write puts its character in one cell, and past the
bounds each stop is the primitive's own. -/
theorem memoryPrimitivesAdmitted : Obligations.MemoryPrimitivesAdmitted := by
  refine ⟨?_, ?_, ?_, ?_, ?_⟩
  · intro s i b hlen hcell
    exact memRead_eq_next.2 ⟨hlen, hcell, rfl⟩
  · intro s i hpast
    exact memRead_pastLength hpast
  · intro s j c hcap hcount
    exact ⟨s.putOut j c, memWrite_eq_next.2 ⟨⟨hcap, hcount⟩, rfl⟩, fun a => Memory.read_write s.outMem j a c, rfl⟩
  · intro s j c hpast
    exact memWrite_overflow c hpast
  · intro s j c hcap hpast
    exact memWrite_pastCount c hcap hpast

/-! ### The cells of a group -/

/-- The cells that the reads of `bs` touch are consecutive, from the first index on. -/
theorem touch_readsOf (i : Nat) (bs : List Byte) :
    (readsOf i bs).map Access.touch = (List.range bs.length).map (fun k => .read (i + k)) := by
  induction bs generalizing i with
  | nil => rfl
  | cons b bs ih =>
    simp [readsOf, Access.touch, ih, List.range_succ_eq_map, Function.comp_def, Nat.add_right_comm, Nat.add_assoc]

/-- The cells that the writes of `cs` touch are consecutive, from the first index on. -/
theorem touch_writesOf (j : Nat) (cs : List Byte) :
    (writesOf j cs).map Access.touch = (List.range cs.length).map (fun k => .write (j + k)) := by
  induction cs generalizing j with
  | nil => rfl
  | cons c cs ih =>
    simp [writesOf, Access.touch, ih, List.range_succ_eq_map, Function.comp_def, Nat.add_right_comm, Nat.add_assoc]

/-- A group operation moves `IC` past its bytes and appends to the history the cells of its group, reads
before writes (R65 item 2). -/
theorem encodeGroup_touches {n m : Nat} {chars : Word32 → List Byte} {s t : State}
    (hm : ∀ v, (chars v).length = m) (h : encodeGroup n chars s = .next t) :
    t.ic = s.ic + n ∧
      t.accesses.map Access.touch = s.accesses.map Access.touch ++ groupTouches s.ic n s.oc m := by
  obtain ⟨bs, hn, -, -, rfl⟩ := encodeGroup_eq_next.1 h
  simp [touch_readsOf, touch_writesOf, groupTouches, hn, hm]

/-! ### The cells of a call -/

/-- A call that has consumed nothing has touched nothing. -/
@[simp] theorem callTouches_zero : callTouches 0 = [] := by decide

/-- One group of `r` bytes more, full or tail, after full groups: it reads `r` cells at `n` and writes one cell more than
that at `N_out(n)`. -/
theorem callTouches_add_group {n r : Nat} (hn : n % 4 = 0) (hpos : 1 ≤ r) (hle : r ≤ 4) :
    callTouches (n + r) = callTouches n ++ groupTouches n r (nOut n) (r + 1) := by
  obtain ⟨g, rfl⟩ := Nat.dvd_of_mod_eq_zero hn
  have hout : nOut (4 * g) = 5 * g := by
    simp [nOut, tailCount, Nat.mul_comm]
  have hbefore : 4 * g / 4 = g := by omega
  rw [hout, callTouches, callTouches, if_pos hn, hbefore, List.append_nil]
  obtain rfl | htail := Nat.eq_or_lt_of_le hle
  · have hdiv : (4 * g + 4) / 4 = g + 1 := by omega
    have hmod : (4 * g + 4) % 4 = 0 := by omega
    simp [hdiv, hmod, List.range_succ]
  · have hdiv : (4 * g + r) / 4 = g := by omega
    have hmod : (4 * g + r) % 4 = r := by omega
    rw [hdiv, hmod, if_neg (by omega)]

/-! ### Every step keeps the order -/

/-- A group of 1 to 4 bytes, one character more than its bytes, keeps the order: in RUN the cursors stand between groups
(R29), so its accesses are those that the call calls for next. -/
theorem encodeGroup_keeps_accessInv {r : Nat} {chars : Word32 → List Byte} {s t : State} (hcall : s.CallInv)
    (hacc : s.AccessInv) (hrun : s.phase = .run) (hpos : 1 ≤ r) (hle : r ≤ 4) (hleft : s.ic + r ≤ s.len)
    (hchars : ∀ v, (chars v).length = r + 1) (h : encodeGroup r chars s = .next t) : t.AccessInv := by
  intro _
  obtain ⟨hic, htouches⟩ := encodeGroup_touches hchars h
  obtain ⟨-, hbetween, hoc⟩ := hcall.1 hrun
  have hfull : s.ic % 4 = 0 := hbetween.resolve_right (by omega)
  have hsofar : s.accesses.map Access.touch = callTouches s.ic := hacc (by simp [hrun])
  rw [htouches, hic, hsofar, hoc, callTouches_add_group hfull hpos hle]

/-- Every operation keeps the order: a full group and a tail are both groups, and the finish accesses no memory. -/
theorem exec_keeps_accessInv {i : Instr} {s t : State} (hcall : s.CallInv) (hacc : s.AccessInv)
    (h : exec i s = .next t) : t.AccessInv := by
  obtain ⟨hrun, ⟨-, hleft, hgroup⟩ | ⟨r, hpos, hle, hleft, hgroup⟩ | ⟨-, -, rfl⟩⟩ := exec_cases h
  · exact encodeGroup_keeps_accessInv hcall hacc hrun (by decide) (by decide) hleft (fullGroupChars_length _) hgroup
  · exact encodeGroup_keeps_accessInv hcall hacc hrun hpos (by omega) hleft.le
      (fun v => tailGroupChars_length _ v hle) hgroup
  · intro _
    exact hacc (by simp [hrun])

/-- Every move of the host keeps the order: RESET leads to IDLE, START begins an empty history at `IC` = 0, and no other
move changes the history or `IC`. -/
theorem hostMove_keeps_accessInv {m : HostMove} {s t : State} (hacc : s.AccessInv) (h : hostMove m s = .next t) :
    t.AccessInv := by
  obtain rfl | ⟨-, rfl⟩ | ⟨l, -, hstart⟩ | ⟨i, b, -, -, -, rfl⟩ | ⟨j, c, -, -, -, rfl⟩ := hostMove_cases h
  · exact hacc
  · exact fun hactive => absurd (State.afterReset_phase s) hactive
  · obtain ⟨-, -, -, -, -, -, rfl⟩ := startWith_eq_next.1 hstart
    exact fun _ => callTouches_zero.symm
  · exact hacc
  · exact hacc

/-- Settles O51: a step is a move of the host or of the encoder, and the encoder waits or runs an operation; each keeps
the order. -/
theorem accessOrderKept : Obligations.AccessOrderKept := by
  intro s t hcall hacc hstep
  obtain ⟨m, -, hhost⟩ | ⟨-, henc⟩ := step_cases hstep
  · exact hostMove_keeps_accessInv (s := s.turnTaken) hacc hhost
  · obtain ⟨-, rfl⟩ | ⟨-, -, hexec⟩ := encoderStep_cases henc
    · exact hacc
    · exact exec_keeps_accessInv (s := s.turnTaken) hcall hacc hexec

end Sys2Proof.Machine
end

section
/-!
PROOFS. The operation selector: its words, its two fields, and the operations of a call in order (30_encoding.md R80,
R81, R91, R92, R103).
-/

namespace Sys2Proof

/-! ### The words of the opcode map -/

/-- A set top bit selects ENC.FULL, whatever the two bits that the decoder ignores (R81). -/
theorem decode_top_set : ∀ low : BitVec 2, decode (1#1 ++ low) = .encFull := by decide

theorem decode_encode (i : Instr) (low : BitVec 2) : decode (encode i low) = i := by
  cases i with
  | encFull => exact decode_top_set low
  | encTail1 => simp [encode, decode]
  | encTail2 => simp [encode, decode]
  | encTail3 => simp [encode, decode]
  | encFinish => simp [encode, decode]

/-- Every selector is the word of its operation, with its own low bits where ENC.FULL leaves them open: checked for the
eight selectors. -/
theorem encode_decode : ∀ sel : Selector, encode (decode sel) (sel.setWidth 2) = sel := by decide

/-- Settles O1: each word is an encoding of its operation, the four of ENC.FULL by its two open bits. -/
theorem selectorWordsDecode : Obligations.SelectorWordsDecode :=
  ⟨decode_encode .encFull 0b00, decode_encode .encFull 0b01, decode_encode .encFull 0b10, decode_encode .encFull 0b11,
    decode_encode .encTail1 0, decode_encode .encTail2 0, decode_encode .encTail3 0, decode_encode .encFinish 0⟩

/-- Settles O3: one round trip by the operations, the other by the selectors. -/
theorem decodeInvertsEncode : Obligations.DecodeInvertsEncode :=
  ⟨decode_encode, encode_decode⟩

/-! ### The operations of a call, in order -/

/-- With no byte left only the finish is to come. -/
theorem expansion_zero : expansion 0 = [.encFinish] := rfl

/-- Four bytes more make one full group more, ahead of the others (R91). -/
theorem expansion_add_four (n : Nat) : expansion (n + 4) = .encFull :: expansion n := by
  have hdiv : (n + 4) / 4 = n / 4 + 1 := Nat.add_div_right n (by decide)
  have hmod : (n + 4) % 4 = n % 4 := Nat.add_mod_right n 4
  rw [expansion, hdiv, hmod, List.replicate_succ, List.cons_append, ← expansion]

end Sys2Proof

namespace Sys2Proof.Machine

/-- While bytes are left, the operation that their number selects comes first, and it takes four of them, or all when
they are fewer (R91, R103). -/
theorem expansion_of_pos {n : Nat} (h : 0 < n) : expansion n = decode (selectorOf n) :: expansion (n - 4) := by
  by_cases hfull : 4 ≤ n
  · obtain ⟨m, rfl⟩ := Nat.exists_eq_add_of_le' hfull
    rw [decode_selectorOf, if_pos hfull, expansion_add_four, Nat.add_sub_cancel]
  · have htail : n = 1 ∨ n = 2 ∨ n = 3 := by omega
    obtain rfl | rfl | rfl := htail <;> decide

/-- A group operation moves `IC` past its bytes and keeps `PHASE` and `LEN`. -/
theorem encodeGroup_moves_ic {n : Nat} {chars : Word32 → List Byte} {s t : State}
    (h : encodeGroup n chars s = .next t) : t.phase = s.phase ∧ t.len = s.len ∧ t.ic = s.ic + n := by
  obtain ⟨bs, -, -, -, rfl⟩ := encodeGroup_eq_next.1 h
  exact ⟨rfl, rfl, rfl⟩

/-- An operation on the bytes left: with some left it takes four of them, or all when they are fewer, and stays in RUN;
with none left it ends the call. -/
theorem exec_bytesLeft {i : Instr} {s t : State} (h : exec i s = .next t) :
    (s.ic < s.len ∧ t.phase = .run ∧ t.bytesLeft = s.bytesLeft - 4) ∨ (s.ic = s.len ∧ t.phase = .done) := by
  obtain ⟨hrun, ⟨-, hleft, hgroup⟩ | ⟨r, hpos, hle, hleft, hgroup⟩ | ⟨-, hnone, rfl⟩⟩ := exec_cases h
  · obtain ⟨hphase, hlen, hic⟩ := encodeGroup_moves_ic hgroup
    exact .inl ⟨by omega, hphase.trans hrun, by simp only [State.bytesLeft]; omega⟩
  · obtain ⟨hphase, hlen, hic⟩ := encodeGroup_moves_ic hgroup
    exact .inl ⟨by omega, hphase.trans hrun, by simp only [State.bytesLeft]; omega⟩
  · exact .inr ⟨hnone, State.finish_phase s⟩

/-- Settles O9: with bytes left the selected operation heads the expansion and leaves the expansion of four bytes fewer;
with none left the finish is all of it. -/
theorem callFollowsExpansion : Obligations.CallFollowsExpansion := by
  intro s hcall hrun
  obtain ⟨hle, -, -⟩ := hcall.1 hrun
  obtain hnone | hleft := Nat.eq_or_lt_of_le hle
  · have hzero : s.len - s.ic = 0 := by omega
    have hsel : decode s.sel = .encFinish := by
      rw [State.sel, State.bytesLeft, hzero]
      rfl
    refine ⟨.encFinish, [], hsel ▸ selected_run hrun hle, hzero ▸ expansion_zero, ?_, fun _ _ _ => rfl⟩
    intro t hexec hstays
    obtain ⟨hsome, -, -⟩ | ⟨-, hdone⟩ := exec_bytesLeft hexec
    · omega
    · simp [hdone] at hstays
  · refine ⟨decode s.sel, expansion (s.bytesLeft - 4), selected_run hrun hle,
      expansion_of_pos (Nat.sub_pos_of_lt hleft), ?_, ?_⟩
    · intro t hexec _
      obtain ⟨-, -, hbytes⟩ | ⟨hnone, -⟩ := exec_bytesLeft hexec
      · exact congrArg expansion hbytes
      · omega
    · intro t hexec hleaves
      obtain ⟨-, hstays, -⟩ | ⟨hnone, -⟩ := exec_bytesLeft hexec
      · exact absurd hstays hleaves
      · omega

/-! ### The two fields of the selector -/

/-- The top bit of the selector says whether at least four bytes are left. -/
theorem selectorOf_getLsbD_two (rb : Nat) : (selectorOf rb).getLsbD 2 = decide (4 ≤ rb) := by
  rw [selectorOf, BitVec.getLsbD_append]
  simp

/-- The two low bits of the selector are the bytes left modulo 4. -/
theorem selectorOf_extractLsb_toNat (rb : Nat) : ((selectorOf rb).extractLsb 1 0).toNat = rb % 4 := by
  rw [BitVec.extractLsb_toNat, selectorOf_toNat]
  split_ifs <;> omega

/-- Settles O4: `SEL` is the selector of the bytes left. -/
theorem selectorReadsBytesLeft : Obligations.SelectorReadsBytesLeft := by
  intro s _ _
  refine ⟨?_, selectorOf_extractLsb_toNat s.bytesLeft⟩
  rw [State.sel, selectorOf_getLsbD_two, decide_eq_true_iff, State.bytesLeft]

end Sys2Proof.Machine
end

section
/-!
PROOFS. The group sequencer: the operation of a step, and the end of a call (40_sequencer_and_call.md R103, R105).
-/

namespace Sys2Proof.Machine

/-! ### The operation of a step -/

/-- In RUN the operation is chosen by the number of bytes left (R103). -/
theorem selected_by_bytesLeft {s : State} (hrun : s.phase = .run) (hle : s.ic ≤ s.len) :
    selected s = .next (some (
      if 4 ≤ s.bytesLeft then .encFull
      else if s.bytesLeft = 1 then .encTail1
      else if s.bytesLeft = 2 then .encTail2
      else if s.bytesLeft = 3 then .encTail3
      else .encFinish)) := by
  rw [selected_run hrun hle, State.sel, decode_selectorOf]

/-- The choice reads `PHASE`, `LEN` and `IC`, and no data byte (R103). -/
theorem selected_congr {s t : State} (hphase : s.phase = t.phase) (hlen : s.len = t.len) (hic : s.ic = t.ic) :
    selected s = selected t := by
  simp only [selected, State.sel, State.bytesLeft, hphase, hlen, hic]

/-- Settles O6: each number of bytes left picks its branch of the choice. -/
theorem stepSelection : Obligations.StepSelection := by
  refine ⟨fun s hrun hle => ?_, fun s hrun => selected_hold hrun, fun s t => selected_congr⟩
  rw [selected_by_bytesLeft hrun hle, State.bytesLeft]
  refine ⟨fun h => ?_, fun h => ?_, fun h => ?_, fun h => ?_, fun h => ?_⟩
  · rw [if_pos h]
  all_goals rw [h]; rfl

/-- In RUN the encoder runs the operation that `SEL` decodes to. -/
theorem encoderStep_run {s : State} (hrun : s.phase = .run) (hle : s.ic ≤ s.len) :
    encoderStep s = exec (decode s.sel) s := by
  rw [encoderStep, selected_run hrun hle, andThen_of_next]

/-- Settles O7: the step is the encoder's, on the state itself or on the state one turn on, which has the same `SEL`. -/
theorem stepRunsDecodedOperation : Obligations.StepRunsDecodedOperation := by
  rintro s i hrun hle rfl
  constructor
  · intro hagenda
    rw [step_of_agenda_nil hagenda, encoderStep_run hrun hle]
  · intro ts hagenda
    rw [step_of_agenda_encoder hagenda]
    exact encoderStep_run (s := s.withAgenda ts) hrun hle

/-! ### The end of a call -/

/-- An operation that completes and is not the finish is a group operation: `CNT` stays, and the call stays in RUN. -/
theorem exec_of_ne_finish {i : Instr} {s t : State} (h : exec i s = .next t) (hne : i ≠ .encFinish) :
    t.cnt = s.cnt ∧ t.phase = .run := by
  obtain ⟨hrun, ⟨-, -, hgroup⟩ | ⟨r, -, -, -, hgroup⟩ | ⟨hfinish, -, -⟩⟩ := exec_cases h
  · obtain ⟨hphase, -, hcnt⟩ := encodeGroup_keeps_phase_len_cnt hgroup
    exact ⟨hcnt, hphase.trans hrun⟩
  · obtain ⟨hphase, -, hcnt⟩ := encodeGroup_keeps_phase_len_cnt hgroup
    exact ⟨hcnt, hphase.trans hrun⟩
  · exact absurd hfinish hne

/-- The tail line of a call is no finish. -/
theorem encFinish_not_mem_tailLine (r : Nat) : Instr.encFinish ∉ tailLine r := by
  unfold tailLine
  split <;> decide

/-- Of the operations of a call only the last is the finish (R91, R104). -/
theorem count_encFinish_expansion (n : Nat) : (expansion n).count .encFinish = 1 := by
  have hfull : (List.replicate (n / 4) Instr.encFull).count .encFinish = 0 :=
    List.count_eq_zero_of_not_mem (by simp [List.mem_replicate])
  have htail := List.count_eq_zero_of_not_mem (encFinish_not_mem_tailLine (n % 4))
  rw [expansion, List.count_append, List.count_append, hfull, htail, List.count_singleton_self]

/-- Settles O30: the finish answers `State.finish`, where nothing is selected; every other operation is a group operation;
and an expansion holds one finish. -/
theorem finishResult : Obligations.FinishResult := by
  refine ⟨fun s hrun hnone => ⟨?_, selected_hold (by simp)⟩, fun i s t h hne => exec_of_ne_finish h hne,
    expansion_zero, count_encFinish_expansion⟩
  exact execEncFinish_eq_next.2 ⟨⟨hrun, hnone⟩, rfl⟩

/-- Settles O32: the finish answers `State.finish`, which writes `CNT` and `PHASE` only. -/
theorem finishFrame : Obligations.FinishFrame := by
  intro s t h
  obtain ⟨-, rfl⟩ := execEncFinish_eq_next.1 h
  exact ⟨rfl, rfl, rfl, rfl, rfl, rfl, rfl, rfl, rfl, rfl, fun _ => rfl⟩

end Sys2Proof.Machine
end

section
/-!
PROOFS. The launch of a call and its premises, and the result (40_sequencer_and_call.md R101, R107, R111).
-/

namespace Sys2Proof.Machine

/-! ### What START puts in place -/

/-- A started call has the buffers that its launch hands over: the room that `P_CAP` asks for, and its input bytes. -/
theorem State.launched_bufferInv (s : State) {l : Launch} (hcap : launchCapOk l = true)
    (hinput : launchHasInput l = true) : (s.launched l).BufferInv := by
  have hlength : l.len ≤ l.input.length := of_decide_eq_true hinput
  refine fun _ => ⟨of_decide_eq_true hcap, fun i hi => ?_⟩
  rw [State.launched_len] at hi
  rw [State.launched_inMem, Memory.read_ofBytes, List.getElem?_take_of_lt hi, List.getElem?_eq_getElem (by omega)]
  rfl

/-- A started call meets the other premises of its launch (R111; log 20). -/
theorem State.launched_launchInv (s : State) {w : Width} {aw : Nat} {l : Launch} (hfits : launchFits w l = true)
    (hdisjoint : launchDisjoint l = true) (haddr : launchAddressable aw l = true) :
    (s.launched l).LaunchInv w aw := by
  obtain ⟨hin, hout⟩ := Bool.and_eq_true_iff.1 haddr
  obtain ⟨hinBase, hinCells⟩ := spanFits_iff.1 hin
  obtain ⟨houtBase, houtCells⟩ := spanFits_iff.1 hout
  exact fun _ => ⟨hfits, hdisjoint, hinBase, hinCells, houtBase, houtCells⟩

/-- The first operation of a started call is the one that its length selects (R101, R103). -/
theorem selected_launched (s : State) (l : Launch) :
    selected (s.launched l) = .next (some (decode (selectorOf l.len))) :=
  selected_run (State.launched_phase s l) (Nat.zero_le l.len)

/-- A read of `CNT` outside DONE faults (R107). -/
theorem readCount_of_ne_done {s : State} (h : s.phase ≠ .done) : readCount s = .fault .countUnreadable :=
  if_neg h

/-- Settles O37: under its premises START answers the launched state, which holds what the launch hands over; under a
broken premise it is refused. -/
theorem startBeginsCall : Obligations.StartBeginsCall := by
  refine ⟨fun w aw s l hphase => ?_, fun s l ts hagenda => step_of_agenda_host hagenda⟩
  have hrun : s.phase ≠ .run := by
    obtain h | h := hphase <;> simp [h]
  constructor
  · rintro ⟨hcap, hfits, hdisjoint⟩ hin hout hinput
    have hstart : startWith w aw l s = .next (s.launched l) :=
      startWith_eq_next.2 ⟨hrun, decide_eq_true hcap, hfits, hdisjoint, Bool.and_eq_true_iff.2 ⟨hin, hout⟩,
        decide_eq_true hinput, rfl⟩
    refine ⟨s.launched l, hstart, rfl, rfl, rfl, rfl, rfl, readCount_of_ne_done (by simp), selected_launched s l,
      fun hzero => ?_, rfl, rfl, rfl, fun i hi => ?_, fun i hi => ?_, fun j hj => ?_, rfl⟩
    · rw [selected_launched, hzero]
      rfl
    · rw [State.launched_inMem, Memory.read_ofBytes, List.getElem?_take_of_lt hi]
    · rw [State.launched_inMem, Memory.read_ofBytes, List.getElem?_take_eq_none hi]
    · rw [State.launched_outMem, Memory.read_ofBytes, List.getElem?_take_of_lt hj]
  · intro hbroken
    refine startWith_refused_of_premise hrun fun ⟨hcap, hfits, hdisjoint, _, _⟩ => hbroken ?_
    exact ⟨of_decide_eq_true hcap, hfits, hdisjoint⟩

/-! ### Every step keeps the launch premises -/

/-- `s` and `t` are in RUN in the same call: the length, the input, the capacity and the bases that its launch gave. -/
structure State.SameLaunch (s t : State) : Prop where
  run : s.phase = .run
  len : t.len = s.len
  inMem : t.inMem = s.inMem
  cap : t.cap = s.cap
  inBase : t.inBase = s.inBase
  outBase : t.outBase = s.outBase

theorem State.SameLaunch.bufferInv {s t : State} (h : s.SameLaunch t) (hs : s.BufferInv) : t.BufferInv := by
  intro _
  rw [h.len, h.inMem, h.cap]
  exact hs h.run

theorem State.SameLaunch.launchInv {s t : State} {w : Width} {aw : Nat} (h : s.SameLaunch t)
    (hs : s.LaunchInv w aw) : t.LaunchInv w aw := by
  intro _
  simp only [State.inAddress, State.outAddress, h.len, h.cap, h.inBase, h.outBase]
  exact hs h.run

/-- A group operation leaves what the launch gave. -/
theorem encodeGroup_sameLaunch {n : Nat} {chars : Word32 → List Byte} {s t : State} (hrun : s.phase = .run)
    (h : encodeGroup n chars s = .next t) : s.SameLaunch t := by
  obtain ⟨bs, -, -, -, rfl⟩ := encodeGroup_eq_next.1 h
  exact ⟨hrun, rfl, rfl, rfl, rfl, rfl⟩

/-- An operation that stays in RUN is a group operation, and leaves what the launch gave. -/
theorem exec_sameLaunch {i : Instr} {s t : State} (h : exec i s = .next t) (ht : t.phase = .run) :
    s.SameLaunch t := by
  obtain ⟨hrun, ⟨-, -, hgroup⟩ | ⟨r, -, -, -, hgroup⟩ | ⟨-, -, rfl⟩⟩ := exec_cases h
  · exact encodeGroup_sameLaunch hrun hgroup
  · exact encodeGroup_sameLaunch hrun hgroup
  · simp at ht

/-- A move of the host after which a call runs either changes nothing or is the START of that call. -/
theorem hostMove_into_run {m : HostMove} {s t : State} (h : hostMove m s = .next t) (ht : t.phase = .run) :
    s.SameLaunch t ∨ ∃ l, hostStart l s = .next t := by
  obtain rfl | ⟨-, rfl⟩ | ⟨l, -, hstart⟩ | ⟨i, b, -, hrun, -, rfl⟩ | ⟨j, c, -, hrun, -, rfl⟩ := hostMove_cases h
  · exact .inl ⟨ht, rfl, rfl, rfl, rfl, rfl⟩
  · simp at ht
  · exact .inr ⟨l, hstart⟩
  · exact absurd ht hrun
  · exact absurd ht hrun

/-- All that a step into RUN can do to the launch: keep it, or be the START that gives it. -/
theorem step_into_run {s t : State} (h : step s = .next t) (ht : t.phase = .run) :
    s.turnTaken.SameLaunch t ∨ ∃ l, hostStart l s.turnTaken = .next t := by
  obtain ⟨m, -, hhost⟩ | ⟨-, henc⟩ := step_cases h
  · exact hostMove_into_run hhost ht
  · obtain ⟨hrun, rfl⟩ | ⟨-, -, hexec⟩ := encoderStep_cases henc
    · exact absurd ht hrun
    · exact .inl (exec_sameLaunch hexec ht)

/-- Settles O49: outside RUN nothing is claimed; a step into RUN keeps what the launch gave, or is a START, which
checks the premises. -/
theorem launchPremisesKept : Obligations.LaunchPremisesKept := by
  intro s t hstep
  by_cases ht : t.phase = .run
  · obtain hsame | ⟨l, hstart⟩ := step_into_run hstep ht
    · exact ⟨hsame.bufferInv, hsame.launchInv⟩
    · obtain ⟨-, hcap, hfits, hdisjoint, haddr, hinput, rfl⟩ := startWith_eq_next.1 hstart
      exact ⟨fun _ => State.launched_bufferInv _ hcap hinput,
        fun _ => State.launched_launchInv _ hfits hdisjoint haddr⟩
  · exact ⟨fun _ hrun => absurd hrun ht, fun _ hrun => absurd hrun ht⟩

/-! ### The result in DONE -/

/-- A RESULT that completes leaves the state as it was: it completes in DONE (R107). -/
theorem hostMove_result {s : State} (h : s.phase = .done) : hostMove .result s = .next s :=
  andThen_eq_next.2 ⟨s.cnt, readCount_eq_next.2 ⟨h, rfl⟩, rfl⟩

/-- A read of `OUT` that completes leaves the state as it was (R107). -/
theorem hostMove_readOut_eq {j : Nat} {s t : State} (h : hostMove (.readOut j) s = .next t) : t = s := by
  obtain ⟨c, -, hnext⟩ := andThen_eq_next.1 h
  cases hnext
  rfl

/-- Settles O40: what DONE lets the host read, that the reads change nothing, and that of all that a step can do to the
registers only RESET and START leave DONE. -/
theorem resultStaysReadable : Obligations.ResultStaysReadable := by
  refine ⟨fun s hdone => readCount_eq_next.2 ⟨hdone, rfl⟩, fun s j c hdone hcap hcell => ?_,
    fun s hphase => readCount_of_ne_done hphase, fun s ts hdone hagenda => ?_, fun s t j ts _ hagenda hstep => ?_,
    fun s t hdone hstep hnoReset hnoStart => ?_⟩
  · exact hostReadOut_eq_next.2 ⟨by simp [hdone], hcap, hcell⟩
  · rw [step_of_agenda_host hagenda]
    exact hostMove_result (s := s.withAgenda ts) hdone
  · rw [step_of_agenda_host hagenda] at hstep
    exact hostMove_readOut_eq hstep
  · obtain hsame | ⟨hmove, -⟩ | ⟨l, hmove, -, -⟩ | ⟨-, hrun, -⟩ | ⟨-, hrun, -⟩ := step_registers hstep
    · exact ⟨hsame.phase.trans hdone, hsame.cnt, hsame.len, hsame.ic, hsame.oc⟩
    · exact absurd hmove hnoReset
    · exact absurd hmove (hnoStart l)
    · simp [hdone] at hrun
    · simp [hdone] at hrun

end Sys2Proof.Machine
end

section
/-!
PROOFS. A group of a running call: its bytes, its characters by the positional digits, and its operation (R86, R100,
R103, R110).
-/

namespace Sys2Proof.Machine

/-! ### The counts -/

/-- `N_out` without its table of tails (R12). -/
theorem nOut_eq (n : Nat) : nOut n = n / 4 * 5 + (if n % 4 = 0 then 0 else n % 4 + 1) := by
  rw [nOut, tailCount_mod_four]

theorem nOut_mono {m n : Nat} (h : m ≤ n) : nOut m ≤ nOut n := by
  rw [nOut_eq, nOut_eq]
  split_ifs <;> omega

theorem nOut_le_capReq (n : Nat) : nOut n ≤ capReq n := by
  rw [nOut_eq, capReq]
  split_ifs <;> omega

/-- One group of `r` bytes more, full or tail, after full groups: one character more than its bytes. -/
theorem nOut_add_group {n r : Nat} (hn : n % 4 = 0) (hpos : 1 ≤ r) (hle : r ≤ 4) :
    nOut (n + r) = nOut n + (r + 1) := by
  obtain rfl | htail := Nat.eq_or_lt_of_le hle
  · exact nOut_add_four n
  · exact nOut_add_tail hn hpos (by omega)

/-! ### The digits and characters of a group -/

/-- The word of a group is its sum by weights (R124). -/
theorem parseWord_toNat {bs : List Byte} (hpos : 1 ≤ bs.length) (hle : bs.length ≤ 4) :
    (parseWord bs).toNat = wordSum bs := by
  rw [parseWord, assemble_toNat]
  match bs, hpos, hle with
  | [b0], _, _ => simp [lane, wordSum]; omega
  | [b0, b1], _, _ => simp [lane, wordSum]; omega
  | [b0, b1, b2], _, _ => simp [lane, wordSum]; omega
  | [b0, b1, b2, b3], _, _ => simp [lane, wordSum]; omega

/-- The first digit of the division chain by its weight: no reduction modulo 85 is needed, as a word has 32 bits. -/
theorem digit0_eq_positional (v : Word32) : digit0 v = positionalDigit v.toNat 0 := by
  have hv := v.isLt
  simp only [digit0, positionalDigit, Fin.mk.injEq, k4]
  omega

theorem digit1_eq_positional (v : Word32) : digit1 v = positionalDigit v.toNat 1 := by
  simp only [digit1, positionalDigit, Fin.mk.injEq, rem1, k4, k3]
  omega

theorem digit2_eq_positional (v : Word32) : digit2 v = positionalDigit v.toNat 2 := by
  simp only [digit2, positionalDigit, Fin.mk.injEq, rem2, rem1, k4, k3, k2]
  omega

theorem digit3_eq_positional (v : Word32) : digit3 v = positionalDigit v.toNat 3 := by
  simp only [digit3, positionalDigit, Fin.mk.injEq, rem3, rem2, rem1, k4, k3, k2, k1]
  omega

theorem digit4_eq_positional (v : Word32) : digit4 v = positionalDigit v.toNat 4 := by
  simp only [digit4, positionalDigit, Fin.mk.injEq, rem3, rem2, rem1, k4, k3, k2, k1]
  omega

/-- The characters of a full group, by position. -/
theorem fullGroupChars_eq_map (t : TableB) (v : Word32) :
    fullGroupChars t v = (List.range 5).map (positionChar t true v.toNat) := by
  simp [fullGroupChars, List.range_succ, positionChar, digit0_eq_positional, digit1_eq_positional,
    digit2_eq_positional, digit3_eq_positional, digit4_eq_positional]

/-- The characters of a tail of `r` bytes, by position. -/
theorem tailGroupChars_eq_map (t : TableB) {r : Nat} (v : Word32) (h : r ≤ 3) :
    tailGroupChars t r v = (List.range (r + 1)).map (positionChar t false v.toNat) := by
  have hfour : [lutA (digit0 v), lutBTail t (digit1 v), lutBTail t (digit2 v), lutBTail t (digit3 v)] =
      (List.range 4).map (positionChar t false v.toNat) := by
    simp [List.range_succ, positionChar, digit0_eq_positional, digit1_eq_positional, digit2_eq_positional,
      digit3_eq_positional]
  rw [tailGroupChars, hfour, ← List.map_take, List.take_range, Nat.min_eq_left (by omega)]

/-- The characters that the operation on a group of `r` bytes computes from its word: a full group for 4 bytes, else a
tail. -/
def groupChars (t : TableB) (r : Nat) : Word32 → List Byte :=
  if r = 4 then fullGroupChars t else tailGroupChars t r

theorem groupChars_length (t : TableB) {r : Nat} (v : Word32) (h : r ≤ 4) : (groupChars t r v).length = r + 1 := by
  unfold groupChars
  split_ifs with hfull
  · rw [fullGroupChars_length, hfull]
  · exact tailGroupChars_length t v (by omega)

/-- The machine's characters of a group are those of the text (R86, R160). -/
theorem groupChars_eq_groupText (t : TableB) {r : Nat} {bs : List Byte} (hlen : bs.length = r) (hpos : 1 ≤ r)
    (hle : r ≤ 4) : groupChars t r (parseWord bs) = groupText t bs := by
  subst hlen
  unfold groupChars groupText
  rw [← parseWord_toNat hpos hle]
  split_ifs with hfull
  · rw [fullGroupChars_eq_map, hfull]
    rfl
  · rw [tailGroupChars_eq_map t _ (by omega), beq_eq_false_iff_ne.2 hfull]

/-! ### The text, group by group -/

theorem groupText_length (t : TableB) (bs : List Byte) : (groupText t bs).length = bs.length + 1 := by
  simp [groupText]

/-- The text of an input that is not empty: the characters of its first group, then the text of the rest (R100). -/
theorem encodeText_of_ne_nil (t : TableB) {bs : List Byte} (h : bs ≠ []) :
    encodeText t bs = groupText t (bs.take 4) ++ encodeText t (bs.drop 4) := by
  match bs, h with
  | [b0], _ => simp [encodeText]
  | [b0, b1], _ => simp [encodeText]
  | [b0, b1, b2], _ => simp [encodeText]
  | b0 :: b1 :: b2 :: b3 :: rest, _ => simp [encodeText]

/-- The text of an input has as many characters as the counting function says (R106). -/
theorem encodeText_length (t : TableB) (bs : List Byte) : (encodeText t bs).length = nOut bs.length := by
  induction bs using encodeText.induct with
  | case1 => rfl
  | case2 b0 => simp [encodeText, groupText_length, nOut, tailCount]
  | case3 b0 b1 => simp [encodeText, groupText_length, nOut, tailCount]
  | case4 b0 b1 b2 => simp [encodeText, groupText_length, nOut, tailCount]
  | case5 b0 b1 b2 b3 rest ih =>
    have hgroup : (groupText t [b0, b1, b2, b3]).length = 5 := groupText_length t [b0, b1, b2, b3]
    have hcount : nOut (b0 :: b1 :: b2 :: b3 :: rest).length = nOut rest.length + 5 := nOut_add_four rest.length
    rw [encodeText, List.length_append, hgroup, ih, hcount, Nat.add_comm]

/-! ### The bytes that a call has still to consume -/

/-- The input bytes from `IC` on. -/
def State.pending (s : State) : List Byte := s.inputText.drop s.ic

theorem State.inputText_length (s : State) : s.inputText.length = s.len := by
  simp [State.inputText]

theorem State.pending_length (s : State) : s.pending.length = s.bytesLeft := by
  rw [State.pending, List.length_drop, State.inputText_length, State.bytesLeft]

/-- Where a cell of `IN` holds a byte, the next `n` of the pending bytes are what reading gives. -/
theorem State.read_pending {s : State} {n : Nat} (hleft : s.ic + n ≤ s.len)
    (hbytes : ∀ k, k < n → (s.inMem.read (s.ic + k)).isSome = true) :
    (s.pending.take n).length = n ∧
      ∀ k, k < n → s.ic + k < s.len ∧ s.inMem.read (s.ic + k) = (s.pending.take n)[k]? := by
  refine ⟨?_, fun k hk => ⟨by omega, ?_⟩⟩
  · rw [List.length_take, State.pending_length, State.bytesLeft]
    omega
  · obtain ⟨b, hb⟩ := Option.isSome_iff_exists.1 (hbytes k hk)
    have hlt : s.ic + k < s.len := by omega
    rw [List.getElem?_take_of_lt hk, State.pending, List.getElem?_drop, State.inputText]
    simp [hlt, hb]

/-! ### The operation of a group -/

/-- ENC.FULL within its `require` line (R171). -/
theorem execEncFull_of_guard {s : State} (hrun : s.phase = .run) (hleft : s.ic + 4 ≤ s.len) :
    execEncFull s = encodeGroup 4 (groupChars Config.tableB 4) s :=
  if_pos ⟨hrun, hleft⟩

/-- ENC.TAILr within its `require` line (R181). -/
theorem encodeTail_of_guard {r : Nat} {s : State} (hr : r ≤ 3) (hrun : s.phase = .run) (hleft : s.ic + r = s.len) :
    encodeTail r s = encodeGroup r (groupChars Config.tableB r) s := by
  rw [groupChars, if_neg (by omega)]
  exact if_pos ⟨hrun, hleft⟩

/-- The four group operations, each with its bytes and its characters (R86). -/
def groupSizes : List (Instr × Nat × Nat) :=
  [(.encFull, 4, 5), (.encTail1, 1, 2), (.encTail2, 2, 3), (.encTail3, 3, 4)]

/-- Within its `require` line each of the four operations encodes a group of `n` bytes, one character more than that. -/
theorem exec_group_of_guard {s : State} {i : Instr} {n m : Nat} (hmem : (i, n, m) ∈ groupSizes)
    (hrun : s.phase = .run) (hguard : if i = .encFull then s.ic + n ≤ s.len else s.ic + n = s.len) :
    n ≤ 4 ∧ m = n + 1 ∧ s.ic + n ≤ s.len ∧ exec i s = encodeGroup n (groupChars Config.tableB n) s := by
  simp only [groupSizes, List.mem_cons, Prod.mk.injEq, List.not_mem_nil, or_false] at hmem
  obtain ⟨rfl, rfl, rfl⟩ | ⟨rfl, rfl, rfl⟩ | ⟨rfl, rfl, rfl⟩ | ⟨rfl, rfl, rfl⟩ := hmem
  · exact ⟨by decide, rfl, hguard, execEncFull_of_guard hrun hguard⟩
  · exact ⟨by decide, rfl, Nat.le_of_eq hguard, encodeTail_of_guard (by decide) hrun hguard⟩
  · exact ⟨by decide, rfl, Nat.le_of_eq hguard, encodeTail_of_guard (by decide) hrun hguard⟩
  · exact ⟨by decide, rfl, Nat.le_of_eq hguard, encodeTail_of_guard (by decide) hrun hguard⟩

/-- Settles O60: the operation is a group of bytes that are there to be read, and the write at `N_out(LEN)` is refused. -/
theorem writePastCountIsRefused : Obligations.WritePastCountIsRefused := by
  intro s i n m hmem hrun hguard hbytes hcount hcap hoc
  obtain ⟨hn, rfl, hleft, hexec⟩ := exec_group_of_guard hmem hrun hguard
  obtain ⟨hlen, hread⟩ := State.read_pending hleft hbytes
  have hchars := groupChars_length Config.tableB (parseWord (s.pending.take n)) hn
  rw [hexec]
  exact encodeGroup_pastCount hlen hread (List.ne_nil_of_length_pos (by omega)) (by omega) hcap hoc

end Sys2Proof.Machine
end

section
/-!
PROOFS. The run of a call, with the encoder alone to move, from any state of it to DONE (R104, R112).
-/

namespace Sys2Proof.Machine

/-! ### The steps of a running call -/

/-- A call runs in `s`, its invariant and its buffers in order, and the encoder is alone to move. -/
structure State.Running (s : State) : Prop where
  call : s.CallInv
  buffers : s.BufferInv
  run : s.phase = .run
  alone : s.agenda = []

/-- The bytes of the next group: four, or all that are left when they are fewer. -/
def State.groupSize (s : State) : Nat := min 4 s.bytesLeft

/-- The state after the next group of a call: its text at `OC`, and the cursors past it. -/
def State.afterGroup (s : State) : State :=
  { s with
    ic := s.ic + s.groupSize
    oc := s.oc + (s.groupSize + 1)
    outMem := writeAll s.outMem s.oc (groupText Config.tableB (s.pending.take s.groupSize))
    accesses := s.accesses ++ readsOf s.ic (s.pending.take s.groupSize) ++
      writesOf s.oc (groupText Config.tableB (s.pending.take s.groupSize)) }

/-- With bytes left, `SEL` decodes to the operation on the next group (R103). -/
theorem exec_decode_sel {s : State} (hrun : s.phase = .run) (hleft : s.ic < s.len) :
    exec (decode s.sel) s = encodeGroup s.groupSize (groupChars Config.tableB s.groupSize) s := by
  rw [State.sel, decode_selectorOf, State.groupSize]
  by_cases hfull : 4 ≤ s.bytesLeft
  · rw [if_pos hfull, Nat.min_eq_left hfull]
    exact execEncFull_of_guard hrun (by simp only [State.bytesLeft] at hfull; omega)
  · rw [if_neg hfull, Nat.min_eq_right (by omega)]
    have hguard : s.ic + s.bytesLeft = s.len := Nat.add_sub_of_le hleft.le
    have hpos : 0 < s.bytesLeft := Nat.sub_pos_of_lt hleft
    have htail : s.bytesLeft = 1 ∨ s.bytesLeft = 2 ∨ s.bytesLeft = 3 := by omega
    obtain h | h | h := htail
    all_goals
      rw [h] at hguard ⊢
      exact encodeTail_of_guard (by decide) hrun hguard

/-- The next group of a running call with bytes left has 1 to 4 bytes within the input, and its end is a place where the
cursors of a call may stand (R29): between groups or at the end of the input, with `OC` the count of the bytes consumed. -/
theorem State.Running.group_bounds {s : State} (h : s.Running) (hleft : s.ic < s.len) :
    1 ≤ s.groupSize ∧ s.groupSize ≤ 4 ∧ s.ic + s.groupSize ≤ s.len ∧
      ((s.ic + s.groupSize) % 4 = 0 ∨ s.ic + s.groupSize = s.len) ∧
      s.oc + (s.groupSize + 1) = nOut (s.ic + s.groupSize) := by
  obtain ⟨-, hbetween, hoc⟩ := h.call.1 h.run
  have hfull : s.ic % 4 = 0 := hbetween.resolve_right hleft.ne
  have hsize : s.groupSize = min 4 (s.len - s.ic) := rfl
  have hpos : 1 ≤ s.groupSize := by omega
  have hle : s.groupSize ≤ 4 := by omega
  exact ⟨hpos, hle, by omega, by omega, by rw [nOut_add_group hfull hpos hle, hoc]⟩

/-- With bytes left a running call steps over its next group: the bytes are there, and the characters have room. -/
theorem State.Running.step_group {s : State} (h : s.Running) (hleft : s.ic < s.len) :
    step s = .next s.afterGroup := by
  obtain ⟨hpos, hle, hwithin, -, hoc⟩ := h.group_bounds hleft
  obtain ⟨hcap, hinput⟩ := h.buffers h.run
  obtain ⟨hlen, hread⟩ := State.read_pending hwithin fun k hk => hinput _ (by omega)
  have hroom : s.oc + (s.groupSize + 1) ≤ nOut s.len := hoc ▸ nOut_mono hwithin
  have hreq := nOut_le_capReq s.len
  have hchars := groupChars_eq_groupText Config.tableB hlen hpos hle
  rw [step_of_agenda_nil h.alone, encoderStep_run h.run hleft.le, exec_decode_sel h.run hleft, encodeGroup_eq_next]
  refine ⟨s.pending.take s.groupSize, hlen, hread, ?_, ?_⟩
  · intro k hk
    rw [hchars, groupText_length, hlen] at hk
    omega
  · rw [hchars, groupText_length, hlen]
    rfl

/-- The next group leads from a running call to a running call. -/
theorem State.Running.afterGroup {s : State} (h : s.Running) (hleft : s.ic < s.len) : s.afterGroup.Running := by
  obtain ⟨-, -, hwithin, hbetween, hoc⟩ := h.group_bounds hleft
  have hnotDone : s.phase ≠ .done := by simp [h.run]
  exact ⟨⟨fun _ => ⟨hwithin, hbetween, hoc⟩, fun hdone => absurd hdone hnotDone⟩, h.buffers, h.run, h.alone⟩

/-- With no byte left a running call steps to its end. -/
theorem State.Running.step_finish {s : State} (h : s.Running) (hnone : s.ic = s.len) : step s = .next s.finish := by
  have hsel : decode s.sel = .encFinish := by
    rw [State.sel, State.bytesLeft, hnone, Nat.sub_self]
    rfl
  rw [step_of_agenda_nil h.alone, encoderStep_run h.run hnone.le, hsel]
  exact execEncFinish_eq_next.2 ⟨⟨h.run, hnone⟩, rfl⟩

/-- Induction over the groups of a call, from its end: what holds before the finish, and before a group when it holds
after it, holds of every running call. -/
theorem State.Running.induction {P : (s : State) → s.Running → Prop}
    (finish : ∀ (s : State) (h : s.Running), s.ic = s.len → P s h)
    (group : ∀ (s : State) (h : s.Running) (hleft : s.ic < s.len), P s.afterGroup (h.afterGroup hleft) → P s h)
    (s : State) (h : s.Running) : P s h := by
  obtain ⟨hle, -, -⟩ := h.call.1 h.run
  obtain hnone | hleft := Nat.eq_or_lt_of_le hle
  · exact finish s h hnone
  · exact group s h hleft (induction finish group s.afterGroup (h.afterGroup hleft))
termination_by s.len - s.ic
decreasing_by
  obtain ⟨hpos, -, -⟩ := h.group_bounds hleft
  change s.len - (s.ic + s.groupSize) < s.len - s.ic
  omega

/-! ### How many steps -/

/-- Before the finish one step is left. -/
theorem State.stepsLeft_of_none {s : State} (h : s.ic = s.len) : s.stepsLeft = 1 := by
  simp [State.stepsLeft, State.bytesLeft, h]

/-- A group takes one of the steps that are left (R104). -/
theorem State.stepsLeft_group {s : State} (hleft : s.ic < s.len) : s.stepsLeft = s.afterGroup.stepsLeft + 1 := by
  have hbytes : s.afterGroup.bytesLeft = s.bytesLeft - min 4 s.bytesLeft := (Nat.sub_sub s.len s.ic s.groupSize).symm
  have hpos : 0 < s.bytesLeft := Nat.sub_pos_of_lt hleft
  simp only [State.stepsLeft, hbytes]
  split_ifs <;> omega

/-- Before its last step a call is in RUN (R104). -/
theorem State.Running.run_of_lt {s : State} (h : s.Running) :
    ∀ k, k < s.stepsLeft → ∃ t : State, runSteps k s = .next t ∧ t.phase = .run := by
  induction s, h using State.Running.induction with
  | finish s h hnone =>
    intro k hk
    rw [State.stepsLeft_of_none hnone, Nat.lt_one_iff] at hk
    exact ⟨s, hk ▸ runSteps_zero s, h.run⟩
  | group s h hleft ih =>
    intro k hk
    cases k with
    | zero => exact ⟨s, runSteps_zero s, h.run⟩
    | succ k =>
      rw [State.stepsLeft_group hleft] at hk
      rw [runSteps_of_step (h.step_group hleft)]
      exact ih k (by omega)

/-! ### What the steps write -/

theorem writeAll_append (m : Memory) (j : Nat) (cs ds : List Byte) :
    writeAll m j (cs ++ ds) = writeAll (writeAll m j cs) (j + cs.length) ds := by
  induction cs generalizing m j with
  | nil => rfl
  | cons c cs ih => rw [List.cons_append, writeAll, ih, writeAll, List.length_cons, Nat.add_assoc, Nat.add_comm 1]

/-- The next group has its size. -/
theorem State.next_group_length (s : State) : (s.pending.take s.groupSize).length = s.groupSize := by
  rw [List.length_take, State.pending_length, State.groupSize]
  omega

/-- After a group the bytes behind it are pending. -/
theorem State.pending_afterGroup (s : State) : s.afterGroup.pending = s.pending.drop s.groupSize :=
  List.drop_drop.symm

/-- The text of the pending bytes is that of the next group and then that of the bytes behind it. -/
theorem State.encodeText_pending {s : State} (t : TableB) (hleft : s.ic < s.len) :
    encodeText t s.pending =
      groupText t (s.pending.take s.groupSize) ++ encodeText t s.afterGroup.pending := by
  have hne : s.pending ≠ [] := by
    rw [← List.length_pos_iff, State.pending_length]
    exact Nat.sub_pos_of_lt hleft
  rw [State.pending_afterGroup, State.groupSize, ← State.pending_length, ← List.take_eq_take_min,
    ← List.drop_eq_drop_min, encodeText_of_ne_nil t hne]

/-- What a call has reached after its last step: DONE, with the count of its input, and the text of the bytes that were
pending in `s` written from `OC` on. -/
structure State.EndsIn (s t : State) : Prop where
  done : t.phase = .done
  len : t.len = s.len
  cnt : t.cnt = nOut s.len
  inMem : t.inMem = s.inMem
  outMem : t.outMem = writeAll s.outMem s.oc (encodeText Config.tableB s.pending)

/-- A running call ends after its counted steps, with its text written (R104, R112). -/
theorem State.Running.runs_to_end {s : State} (h : s.Running) :
    ∃ t, runSteps s.stepsLeft s = .next t ∧ s.EndsIn t := by
  induction s, h using State.Running.induction with
  | finish s h hnone =>
    obtain ⟨-, -, hoc⟩ := h.call.1 h.run
    have hpending : s.pending = [] := by
      rw [← List.length_eq_zero_iff, State.pending_length, State.bytesLeft, hnone, Nat.sub_self]
    refine ⟨s.finish, ?_, rfl, rfl, ?_, rfl, ?_⟩
    · rw [State.stepsLeft_of_none hnone, runSteps_of_step (h.step_finish hnone), runSteps_zero]
    · rw [State.finish_cnt, hoc, hnone]
    · rw [hpending]
      rfl
  | group s h hleft ih =>
    obtain ⟨t, hrun, hend⟩ := ih
    refine ⟨t, ?_, hend.done, hend.len, hend.cnt, hend.inMem, ?_⟩
    · rw [State.stepsLeft_group hleft, runSteps_of_step (h.step_group hleft), hrun]
    · obtain ⟨-, -, hwithin, -⟩ := h.group_bounds hleft
      rw [hend.outMem, State.encodeText_pending _ hleft, writeAll_append, groupText_length, State.next_group_length]
      rfl

/-- Settles O54: the state after the counted steps is the end of the call, and before them the call runs. -/
theorem callReachesDone : Obligations.CallReachesDone := by
  intro s hcall hbuffers hrun hagenda
  have h : s.Running := ⟨hcall, hbuffers, hrun, hagenda⟩
  obtain ⟨t, hruns, hend⟩ := h.runs_to_end
  exact ⟨⟨t, hruns, hend.done, hend.len, hend.cnt⟩, h.run_of_lt⟩

/-- Settles O55: at the start of a call all of the input is pending, and its text goes to index 0 on. -/
theorem callWritesItsText : Obligations.CallWritesItsText := by
  intro s hbuffers hrun hic hoc hagenda
  have hcall : s.CallInv := ⟨fun _ => by simp [hic, hoc, nOut, tailCount], fun hdone => by simp [hrun] at hdone⟩
  obtain ⟨t, hruns, hend⟩ := State.Running.runs_to_end ⟨hcall, hbuffers, hrun, hagenda⟩
  have hpending : s.pending = s.inputText := by rw [State.pending, hic, List.drop_zero]
  refine ⟨t, hruns, hend.done, hend.cnt, hend.inMem, fun j => ?_⟩
  rw [hend.outMem, hpending, hoc, read_writeAll, encodeText_length, State.inputText_length]
  simp only [Nat.zero_le, true_and, Nat.zero_add, Nat.sub_zero]

end Sys2Proof.Machine
end

section
/-!
PROOFS. The word parser: the word of a full group (41_word_parser.md R121).
-/

namespace Sys2Proof.Machine

/-- A full group has a byte for each lane, so no lane is filled with the constant 0 (R84). -/
theorem parseWord_full (b0 b1 b2 b3 : Byte) : parseWord [b0, b1, b2, b3] = assemble b0 b1 b2 b3 := rfl

/-- Settles O10: the nested sum of the four assembled bytes, multiplied out to the weights of the lanes. -/
theorem fullWordIsBigEndian : Obligations.FullWordIsBigEndian := by
  intro b0 b1 b2 b3
  rw [parseWord_full, assemble_toNat]
  omega

end Sys2Proof.Machine
end

section
/-!
PROOFS. The quintet extractor: each remainder and each digit of the division chain as its stage computes it, with the
constants of R136 as numerals (42_quintet_extractor.md R131 to R136).
-/

namespace Sys2Proof.Machine

/-! Stage 0 (R132). -/

theorem digit0_val (v : Word32) : (digit0 v).val = v.toNat / 52200625 := rfl

theorem rem1_eq (v : Word32) : rem1 v = v.toNat % 52200625 := rfl

/-! Stage 1 (R133). -/

theorem digit1_val (v : Word32) : (digit1 v).val = rem1 v / 614125 := rfl

theorem rem2_eq (v : Word32) : rem2 v = rem1 v % 614125 := rfl

/-! Stage 2 (R134). -/

theorem digit2_val (v : Word32) : (digit2 v).val = rem2 v / 7225 := rfl

theorem rem3_eq (v : Word32) : rem3 v = rem2 v % 7225 := rfl

/-! Stage 3 (R135), which leaves its remainder as the last digit. -/

theorem digit3_val (v : Word32) : (digit3 v).val = rem3 v / 85 := rfl

theorem digit4_val (v : Word32) : (digit4 v).val = rem3 v % 85 := rfl

/-- Settles O14: the three remainders, then the five digits, each by the equation of its stage. -/
theorem digitsByDivisionChain : Obligations.DigitsByDivisionChain := fun v =>
  ⟨rem1_eq v, rem2_eq v, rem3_eq v, digit0_val v, digit1_val v, digit2_val v, digit3_val v, digit4_val v⟩

end Sys2Proof.Machine
end

section
/-!
PROOFS. The table lookup: each image of Table B at its divergent slot and at the other digits (43_dual_lut_lookup.md
R159, R160).
-/

namespace Sys2Proof.Machine

@[simp] theorem lutBFull_sFull (t : TableB) : lutBFull t t.sFull = t.cFull := if_pos rfl

@[simp] theorem lutBTail_sTail (t : TableB) : lutBTail t t.sTail = t.cTail := if_pos rfl

theorem lutBFull_of_ne {t : TableB} {d : Digit} (h : d ≠ t.sFull) : lutBFull t d = lutA d := if_neg h

theorem lutBTail_of_ne {t : TableB} {d : Digit} (h : d ≠ t.sTail) : lutBTail t d = lutA d := if_neg h

/-- Settles O19: off its slot an image is Table A (R155); on it, it holds its stored code, and `B_SPACE` (R156) makes
one of the two codes the space. -/
theorem tableBAgreesAndHoldsSpace : Obligations.TableBAgreesAndHoldsSpace := by
  intro t
  refine ⟨fun d => lutBFull_of_ne, fun d => lutBTail_of_ne, ?_⟩
  rw [lutBFull_sFull, lutBTail_sTail]
  exact t.space

end Sys2Proof.Machine
end

section
/-!
PROOFS. The full group, and the frame of the four group operations (44_full_group.md R170 to R173, R181).
-/

namespace Sys2Proof.Machine

/-! ### A group that completes -/

/-- Writing in ascending order: the first cell holds the first character, every other cell what the rest writes. -/
theorem read_writeAll_cons (m : Memory) (j : Nat) (c : Byte) (cs : List Byte) (a : Nat) :
    Memory.read (writeAll m j (c :: cs)) a = if a = j then some c else Memory.read (writeAll m (j + 1) cs) a := by
  rw [writeAll, read_writeAll, read_writeAll, Memory.read_write]
  by_cases h : a = j
  · simp [h]
  · simp only [if_neg h]

/-- The state after a group of bytes `bs` with characters `cs`: the characters at `OC`, the accesses in the history, and
the cursors past the group (R170). -/
def State.withGroup (s : State) (bs cs : List Byte) : State :=
  { s with
    ic := s.ic + bs.length
    oc := s.oc + cs.length
    outMem := writeAll s.outMem s.oc cs
    accesses := s.accesses ++ readsOf s.ic bs ++ writesOf s.oc cs }

@[simp] theorem State.withGroup_outMem (s : State) (bs cs : List Byte) :
    (s.withGroup bs cs).outMem = writeAll s.outMem s.oc cs := rfl

/-- A group completes when its bytes are there to be read and its characters have room in `CAP` and below `N_out(LEN)`. -/
theorem encodeGroup_of_room {bs : List Byte} {chars : Word32 → List Byte} {s : State}
    (hleft : s.ic + bs.length ≤ s.len) (hread : ∀ k, k < bs.length → s.inMem.read (s.ic + k) = bs[k]?)
    (hcap : s.oc + (chars (parseWord bs)).length ≤ s.cap) (hcount : s.oc + (chars (parseWord bs)).length ≤ nOut s.len) :
    encodeGroup bs.length chars s = .next (s.withGroup bs (chars (parseWord bs))) :=
  encodeGroup_eq_next.2 ⟨bs, rfl, fun k hk => ⟨by omega, hread k hk⟩, fun k hk => ⟨by omega, by omega⟩, rfl⟩

/-! ### ENC.FULL -/

/-- ENC.FULL completes on four bytes that are there, with room for five characters (R171). -/
theorem exec_encFull_of_room {s : State} {b0 b1 b2 b3 : Byte} (hrun : s.phase = .run) (hleft : s.ic + 4 ≤ s.len)
    (h0 : s.inMem.read s.ic = some b0) (h1 : s.inMem.read (s.ic + 1) = some b1)
    (h2 : s.inMem.read (s.ic + 2) = some b2) (h3 : s.inMem.read (s.ic + 3) = some b3)
    (hcap : s.oc + 5 ≤ s.cap) (hcount : s.oc + 5 ≤ nOut s.len) :
    exec .encFull s = .next (s.withGroup [b0, b1, b2, b3]
      (fullGroupChars Config.tableB (parseWord [b0, b1, b2, b3]))) := by
  have hread : ∀ k, k < 4 → s.inMem.read (s.ic + k) = [b0, b1, b2, b3][k]?
    | 0, _ => h0
    | 1, _ => h1
    | 2, _ => h2
    | 3, _ => h3
  exact execEncFull_eq_next.2 ⟨⟨hrun, hleft⟩, encodeGroup_of_room (bs := [b0, b1, b2, b3]) hleft hread hcap hcount⟩

/-- Settles O25: the digits are those of the division chain on the big-endian word, and the five characters stand in
ascending order from `OC` on. -/
theorem fullGroupResult : Obligations.FullGroupResult := by
  intro s b0 b1 b2 b3 hrun hleft h0 h1 h2 h3 hcap hcount
  have hword := fullWordIsBigEndian b0 b1 b2 b3
  have hexec := exec_encFull_of_room hrun hleft h0 h1 h2 h3 hcap hcount
  generalize parseWord [b0, b1, b2, b3] = w at hword hexec
  refine ⟨digit0 w, digit1 w, digit2 w, digit3 w, digit4 w,
    s.withGroup [b0, b1, b2, b3] (fullGroupChars Config.tableB w), ?_⟩
  dsimp only
  rw [← hword]
  refine ⟨digit0_val w, digit1_val w, digit2_val w, digit3_val w, digit4_val w, hexec, rfl, rfl, fun a => ?_, rfl, rfl⟩
  simp only [State.withGroup_outMem, fullGroupChars, read_writeAll_cons]
  rfl

/-! ### A full group of zero bytes -/

/-- Digit 0 is the character `'0'` in the full-group image too (R157, `B_ZERO`). -/
theorem lutBFull_zero (t : TableB) : lutBFull t 0 = 0x30 :=
  (lutBFull_of_ne t.sFull_ne_zero.symm).trans lutA_zero

/-- The word 0 has five digits 0, hence five characters `'0'` (R173). -/
theorem fullGroupChars_zero (t : TableB) : fullGroupChars t 0 = List.replicate 5 0x30 := by
  have h0 : digit0 0 = 0 := by decide
  have h1 : digit1 0 = 0 := by decide
  have h2 : digit2 0 = 0 := by decide
  have h3 : digit3 0 = 0 := by decide
  have h4 : digit4 0 = 0 := by decide
  rw [fullGroupChars, h0, h1, h2, h3, h4, lutA_zero, lutBFull_zero]
  rfl

/-- Settles O26: the word of four zero bytes is 0, and reading at `OC + k` gives its `k`-th character. -/
theorem zeroGroupWritesFiveZeros : Obligations.ZeroGroupWritesFiveZeros := by
  intro s hrun hleft hzero hcap hcount
  have hword : parseWord [0, 0, 0, 0] = 0 := by decide
  have hexec := exec_encFull_of_room hrun hleft (hzero 0 (by decide)) (hzero 1 (by decide)) (hzero 2 (by decide))
    (hzero 3 (by decide)) hcap hcount
  rw [hword, fullGroupChars_zero] at hexec
  refine ⟨_, hexec, rfl, fun k hk => ?_⟩
  have hroom : s.oc ≤ s.oc + k ∧ s.oc + k < s.oc + 5 := by omega
  rw [State.withGroup_outMem, read_writeAll, List.length_replicate, if_pos hroom, Nat.add_sub_cancel_left,
    List.getElem?_replicate, if_pos hk]

/-! ### The frame of the group operations -/

/-- A group operation that completes was within its `require` line (R10, R171, R181). -/
theorem exec_group_guard {s t : State} {i : Instr} {n m : Nat} (hmem : (i, n, m) ∈ groupSizes)
    (h : exec i s = .next t) :
    s.phase = .run ∧ (if i = .encFull then s.ic + n ≤ s.len else s.ic + n = s.len) := by
  simp only [groupSizes, List.mem_cons, Prod.mk.injEq, List.not_mem_nil, or_false] at hmem
  obtain ⟨rfl, rfl, rfl⟩ | ⟨rfl, rfl, rfl⟩ | ⟨rfl, rfl, rfl⟩ | ⟨rfl, rfl, rfl⟩ := hmem
  · exact (execEncFull_eq_next.1 h).1
  · exact (encodeTail_eq_next.1 h).1
  · exact (encodeTail_eq_next.1 h).1
  · exact (encodeTail_eq_next.1 h).1

/-- A group operation that completes leaves its group behind: `n` bytes and `m` characters. -/
theorem exec_group_eq_withGroup {s t : State} {i : Instr} {n m : Nat} (hmem : (i, n, m) ∈ groupSizes)
    (h : exec i s = .next t) :
    ∃ bs cs : List Byte, bs.length = n ∧ cs.length = m ∧ t = s.withGroup bs cs := by
  obtain ⟨hrun, hguard⟩ := exec_group_guard hmem h
  obtain ⟨hn, rfl, -, hexec⟩ := exec_group_of_guard hmem hrun hguard
  rw [hexec] at h
  obtain ⟨bs, rfl, -, -, ht⟩ := encodeGroup_eq_next.1 h
  exact ⟨bs, _, rfl, groupChars_length Config.tableB (parseWord bs) hn, ht⟩

theorem readsOf_length (i : Nat) (bs : List Byte) : (readsOf i bs).length = bs.length := by
  simpa using congrArg List.length (touch_readsOf i bs)

theorem writesOf_length (j : Nat) (cs : List Byte) : (writesOf j cs).length = cs.length := by
  simpa using congrArg List.length (touch_writesOf j cs)

/-- Settles O31: the operation leaves one group behind, whose characters go to the cells from `OC` up to `OC + m`. -/
theorem groupOperationsFrame : Obligations.GroupOperationsFrame := by
  intro s t i n m hmem h
  obtain ⟨bs, cs, rfl, rfl, rfl⟩ := exec_group_eq_withGroup hmem h
  refine ⟨rfl, rfl, rfl, rfl, rfl, rfl, rfl, rfl, rfl, rfl, rfl, ⟨readsOf s.ic bs ++ writesOf s.oc cs, ?_, ?_⟩, ?_⟩
  · rw [List.length_append, readsOf_length, writesOf_length]
  · exact List.append_assoc _ _ _
  · intro a ha
    rw [State.withGroup_outMem, read_writeAll, if_neg (by omega)]

end Sys2Proof.Machine
end

section
/-!
PROOFS. The three tail groups: the word of a tail, its characters, and the operation that completes
(45_tail_group_handler.md R180 to R184, R189).
-/

namespace Sys2Proof.Machine

/-! ### The word of a tail: the bytes that a tail lacks weigh nothing (R123) -/

theorem parseWord_one_toNat (b0 : Byte) : (parseWord [b0]).toNat = b0.toNat * 16777216 := by
  rw [parseWord_toNat (by simp) (by simp)]
  simp [wordSum]

theorem parseWord_two_toNat (b0 b1 : Byte) :
    (parseWord [b0, b1]).toNat = b0.toNat * 16777216 + b1.toNat * 65536 := by
  rw [parseWord_toNat (by simp) (by simp)]
  simp [wordSum]

theorem parseWord_three_toNat (b0 b1 b2 : Byte) :
    (parseWord [b0, b1, b2]).toNat = b0.toNat * 16777216 + b1.toNat * 65536 + b2.toNat * 256 := by
  rw [parseWord_toNat (by simp) (by simp)]
  simp [wordSum, Nat.add_assoc]

/-- The word of a 1-byte tail is at most `0xFF000000`, so its first digit is at most 81 (R182). -/
theorem digit0_parseWord_one_le (b0 : Byte) : (digit0 (parseWord [b0])).val ≤ 81 := by
  have hb := b0.isLt
  rw [digit0_val, parseWord_one_toNat]
  omega

/-! ### The characters of a tail of each size (R86, R186) -/

theorem tailGroupChars_one (t : TableB) (v : Word32) :
    tailGroupChars t 1 v = [lutA (digit0 v), lutBTail t (digit1 v)] := rfl

theorem tailGroupChars_two (t : TableB) (v : Word32) :
    tailGroupChars t 2 v = [lutA (digit0 v), lutBTail t (digit1 v), lutBTail t (digit2 v)] := rfl

theorem tailGroupChars_three (t : TableB) (v : Word32) :
    tailGroupChars t 3 v =
      [lutA (digit0 v), lutBTail t (digit1 v), lutBTail t (digit2 v), lutBTail t (digit3 v)] := rfl

/-- Digit 0 is the character `'0'` in the tail image too (R157, `B_ZERO`). -/
theorem lutBTail_zero (t : TableB) : lutBTail t 0 = 0x30 :=
  (lutBTail_of_ne t.sTail_ne_zero.symm).trans lutA_zero

/-- The word 0 has only digits 0, hence only characters `'0'` (R189). -/
theorem tailGroupChars_zero (t : TableB) {r : Nat} (h : r ≤ 3) :
    tailGroupChars t r 0 = List.replicate (r + 1) 0x30 := by
  have h0 : digit0 0 = 0 := by decide
  have h1 : digit1 0 = 0 := by decide
  have h2 : digit2 0 = 0 := by decide
  have h3 : digit3 0 = 0 := by decide
  have hfour : [0x30, 0x30, 0x30, 0x30] = List.replicate 4 (0x30 : Byte) := rfl
  rw [tailGroupChars, h0, h1, h2, h3, lutA_zero, lutBTail_zero, hfour, List.take_replicate,
    Nat.min_eq_left (by omega)]

/-! ### A tail that completes -/

/-- ENC.TAILr completes on its `r` bytes, with room for `r + 1` characters (R181). -/
theorem encodeTail_of_room {r : Nat} {bs : List Byte} {s : State} (hlen : bs.length = r) (hr : r ≤ 3)
    (hrun : s.phase = .run) (hleft : s.ic + r = s.len) (hread : ∀ k, k < r → s.inMem.read (s.ic + k) = bs[k]?)
    (hcap : s.oc + (r + 1) ≤ s.cap) (hcount : s.oc + (r + 1) ≤ nOut s.len) :
    encodeTail r s = .next (s.withGroup bs (tailGroupChars Config.tableB r (parseWord bs))) := by
  subst hlen
  rw [← tailGroupChars_length Config.tableB (parseWord bs) hr] at hcap hcount
  exact encodeTail_eq_next.2 ⟨⟨hrun, hleft⟩, encodeGroup_of_room (Nat.le_of_eq hleft) hread hcap hcount⟩

/-- After a tail with the word 0 each of its cells holds the character `'0'` (R189). -/
theorem read_withGroup_zero_tail (s : State) (bs : List Byte) (t : TableB) {r k : Nat} (hr : r ≤ 3) (hk : k < r + 1) :
    (s.withGroup bs (tailGroupChars t r 0)).outMem.read (s.oc + k) = some 0x30 := by
  have hroom : s.oc ≤ s.oc + k ∧ s.oc + k < s.oc + (r + 1) := by omega
  rw [State.withGroup_outMem, tailGroupChars_zero t hr, read_writeAll, List.length_replicate, if_pos hroom,
    Nat.add_sub_cancel_left, List.getElem?_replicate, if_pos hk]

/-! ### ENC.TAIL1 -/

/-- ENC.TAIL1 completes on a byte that is there, with room for two characters (R182). -/
theorem exec_encTail1_of_room {s : State} {b0 : Byte} (hrun : s.phase = .run) (hleft : s.ic + 1 = s.len)
    (h0 : s.inMem.read s.ic = some b0) (hcap : s.oc + 2 ≤ s.cap) (hcount : s.oc + 2 ≤ nOut s.len) :
    exec .encTail1 s = .next (s.withGroup [b0] (tailGroupChars Config.tableB 1 (parseWord [b0]))) := by
  have hread : ∀ k, k < 1 → s.inMem.read (s.ic + k) = [b0][k]?
    | 0, _ => h0
  exact encodeTail_of_room rfl (by decide) hrun hleft hread hcap hcount

/-- Settles O27: the digits are those of the division chain on the word `b0 00 00 00`, and a byte 00 makes the word 0. -/
theorem oneByteTailResult : Obligations.OneByteTailResult := by
  intro s b0 hrun hleft h0 hcap hcount
  refine ⟨digit0 (parseWord [b0]), digit1 (parseWord [b0]),
    s.withGroup [b0] (tailGroupChars Config.tableB 1 (parseWord [b0])), ?_⟩
  dsimp only
  rw [← parseWord_one_toNat]
  refine ⟨digit0_val _, digit1_val _, digit0_parseWord_one_le b0, exec_encTail1_of_room hrun hleft h0 hcap hcount,
    rfl, rfl, fun a => ?_, ?_, rfl, rfl⟩
  · simp only [State.withGroup_outMem, tailGroupChars_one, read_writeAll_cons]
    rfl
  · rintro rfl
    have hword : parseWord [0] = 0 := by decide
    rw [hword]
    exact ⟨read_withGroup_zero_tail s [0] _ (k := 0) (by decide) (by decide),
      read_withGroup_zero_tail s [0] _ (by decide) (by decide)⟩

/-! ### ENC.TAIL2 -/

/-- ENC.TAIL2 completes on two bytes that are there, with room for three characters (R183). -/
theorem exec_encTail2_of_room {s : State} {b0 b1 : Byte} (hrun : s.phase = .run) (hleft : s.ic + 2 = s.len)
    (h0 : s.inMem.read s.ic = some b0) (h1 : s.inMem.read (s.ic + 1) = some b1)
    (hcap : s.oc + 3 ≤ s.cap) (hcount : s.oc + 3 ≤ nOut s.len) :
    exec .encTail2 s = .next (s.withGroup [b0, b1] (tailGroupChars Config.tableB 2 (parseWord [b0, b1]))) := by
  have hread : ∀ k, k < 2 → s.inMem.read (s.ic + k) = [b0, b1][k]?
    | 0, _ => h0
    | 1, _ => h1
  exact encodeTail_of_room rfl (by decide) hrun hleft hread hcap hcount

/-- Settles O28: the digits are those of the division chain on the word `b0 b1 00 00`; bytes 00 00 make the word 0, and
the digits of FF FF are computed. -/
theorem twoByteTailResult : Obligations.TwoByteTailResult := by
  intro s b0 b1 hrun hleft h0 h1 hcap hcount
  refine ⟨digit0 (parseWord [b0, b1]), digit1 (parseWord [b0, b1]), digit2 (parseWord [b0, b1]),
    s.withGroup [b0, b1] (tailGroupChars Config.tableB 2 (parseWord [b0, b1])), ?_⟩
  dsimp only
  rw [← parseWord_two_toNat]
  refine ⟨digit0_val _, digit1_val _, digit2_val _, ?_, exec_encTail2_of_room hrun hleft h0 h1 hcap hcount,
    rfl, rfl, fun a => ?_, ?_, rfl, rfl⟩
  · rintro rfl rfl
    decide
  · simp only [State.withGroup_outMem, tailGroupChars_two, read_writeAll_cons]
    rfl
  · rintro rfl rfl k hk
    have hword : parseWord [0, 0] = 0 := by decide
    rw [hword]
    exact read_withGroup_zero_tail s [0, 0] _ (by decide) hk

/-! ### ENC.TAIL3 -/

/-- ENC.TAIL3 completes on three bytes that are there, with room for four characters (R184). -/
theorem exec_encTail3_of_room {s : State} {b0 b1 b2 : Byte} (hrun : s.phase = .run) (hleft : s.ic + 3 = s.len)
    (h0 : s.inMem.read s.ic = some b0) (h1 : s.inMem.read (s.ic + 1) = some b1)
    (h2 : s.inMem.read (s.ic + 2) = some b2) (hcap : s.oc + 4 ≤ s.cap) (hcount : s.oc + 4 ≤ nOut s.len) :
    exec .encTail3 s =
      .next (s.withGroup [b0, b1, b2] (tailGroupChars Config.tableB 3 (parseWord [b0, b1, b2]))) := by
  have hread : ∀ k, k < 3 → s.inMem.read (s.ic + k) = [b0, b1, b2][k]?
    | 0, _ => h0
    | 1, _ => h1
    | 2, _ => h2
  exact encodeTail_of_room rfl (by decide) hrun hleft hread hcap hcount

/-- Settles O29: the digits are those of the division chain on the word `b0 b1 b2 00`; bytes 00 00 00 make the word 0,
and the digits of FF FF FF are computed. -/
theorem threeByteTailResult : Obligations.ThreeByteTailResult := by
  intro s b0 b1 b2 hrun hleft h0 h1 h2 hcap hcount
  refine ⟨digit0 (parseWord [b0, b1, b2]), digit1 (parseWord [b0, b1, b2]), digit2 (parseWord [b0, b1, b2]),
    digit3 (parseWord [b0, b1, b2]),
    s.withGroup [b0, b1, b2] (tailGroupChars Config.tableB 3 (parseWord [b0, b1, b2])), ?_⟩
  dsimp only
  rw [← parseWord_three_toNat]
  refine ⟨digit0_val _, digit1_val _, digit2_val _, digit3_val _, ?_,
    exec_encTail3_of_room hrun hleft h0 h1 h2 hcap hcount, rfl, rfl, fun a => ?_, ?_, rfl, rfl⟩
  · rintro rfl rfl rfl
    decide
  · simp only [State.withGroup_outMem, tailGroupChars_three, read_writeAll_cons]
    rfl
  · rintro rfl rfl rfl k hk
    have hword : parseWord [0, 0, 0] = 0 := by decide
    rw [hword]
    exact read_withGroup_zero_tail s [0, 0, 0] _ (by decide) hk

end Sys2Proof.Machine
end

section
/-!
PROOFS. What a RESET leaves, the buffers that are closed to the host in RUN, and the progress of a running call
(60_exceptions.md R202; 70_reset_and_hazards.md R220, R221, R226 to R228, R232).
-/

namespace Sys2Proof.Machine

/-! ### RESET -/

/-- Outside RUN a RESET leaves no cell of `OUT` open (R221). -/
theorem openCells_of_ne_run {s : State} (h : s.phase ≠ .run) : openCells s = 0 := if_neg h

/-- A RESET leaves open at most the cells of `OUT` below `N_out(LEN)` (R221). -/
theorem openCells_le_nOut (s : State) : openCells s ≤ nOut s.len := by
  by_cases h : s.phase = .run
  · rw [openCells, if_pos h]
    exact Nat.min_le_left _ _
  · rw [openCells_of_ne_run h]
    exact Nat.zero_le _

/-- Past the cells that it leaves open a RESET does not touch `OUT`. -/
theorem State.read_afterReset {s : State} {j : Nat} (h : openCells s ≤ j) :
    s.afterReset.outMem.read j = s.outMem.read j := by
  rw [State.afterReset_outMem, read_fillFree, if_neg (Nat.not_lt.2 h)]

/-- A turn with a RESET, alone or coinciding, is the RESET (R202, R220). -/
theorem step_of_agenda_reset {s : State} {u : Turn} {ts : List Turn} (hagenda : s.agenda = u :: ts)
    (hreset : u = .host .reset ∨ ∃ r, u = .resetWith r) : step s = .next (s.withAgenda ts).afterReset := by
  obtain rfl | ⟨r, rfl⟩ := hreset
  · exact step_of_agenda_host hagenda
  · exact step_of_agenda_resetWith hagenda

/-- Settles O41: the step is the RESET on the state one turn on, whose open cells are none outside RUN and below
`N_out(LEN)` in RUN; a coinciding RESET and a RESET alone are the same step. -/
theorem resetEndsCall : Obligations.ResetEndsCall := by
  constructor
  · intro s u ts hagenda hreset
    refine ⟨(s.withAgenda ts).afterReset, step_of_agenda_reset hagenda hreset, rfl, rfl, rfl, rfl, rfl, rfl,
      fun hrun j => ?_, fun j hj => ?_⟩
    · have hnone : openCells (s.withAgenda ts) = 0 := openCells_of_ne_run hrun
      exact State.read_afterReset (hnone ▸ Nat.zero_le j)
    · exact State.read_afterReset ((openCells_le_nOut (s.withAgenda ts)).trans hj)
  · intro s r ts
    rw [step_of_agenda_reset (State.withAgenda_agenda s _) (.inr ⟨r, rfl⟩),
      step_of_agenda_reset (State.withAgenda_agenda s _) (.inl rfl)]
    rfl

/-! ### The buffers in RUN -/

theorem hostWriteIn_of_run {s : State} (i : Nat) (b : Byte) (h : s.phase = .run) :
    hostWriteIn i b s = .refused .bufferBusy := if_pos h

theorem hostWriteOut_of_run {s : State} (j : Nat) (c : Byte) (h : s.phase = .run) :
    hostWriteOut j c s = .refused .bufferBusy := if_pos h

theorem hostReadIn_of_run {s : State} (i : Nat) (h : s.phase = .run) :
    hostReadIn i s = .refused .bufferBusy := if_pos h

theorem hostReadOut_of_run {s : State} (j : Nat) (h : s.phase = .run) :
    hostReadOut j s = .refused .bufferBusy := if_pos h

/-- Settles O42: the step is the host's move on the state one turn on, which is in RUN too, and each of the four accesses
looks at the phase first. -/
theorem buffersClosedDuringRun : Obligations.BuffersClosedDuringRun := by
  intro s ts i b hrun
  have hrun' : (s.withAgenda ts).phase = .run := hrun
  refine ⟨fun hagenda => ?_, fun hagenda => ?_, fun hagenda => ?_, fun hagenda => ?_⟩
  all_goals rw [step_of_agenda_host hagenda, hostMove]
  · exact hostWriteIn_of_run i b hrun'
  · exact hostWriteOut_of_run i b hrun'
  · rw [hostReadIn_of_run i hrun', andThen_of_refused]
  · rw [hostReadOut_of_run i hrun', andThen_of_refused]

/-! ### Progress -/

/-- The next group of a running call with bytes left takes at least one of them. -/
theorem State.Running.afterGroup_bytesLeft_lt {s : State} (h : s.Running) (hleft : s.ic < s.len) :
    s.afterGroup.bytesLeft < s.bytesLeft := by
  obtain ⟨hpos, -⟩ := h.group_bounds hleft
  exact Nat.sub_lt_sub_left hleft (Nat.lt_add_of_pos_right hpos)

/-- Settles O53: a running call steps to its end with no byte left, and over its next group with bytes left. -/
theorem runningCallProgresses : Obligations.RunningCallProgresses := by
  intro s hcall hbuffers hrun hagenda
  have h : s.Running := ⟨hcall, hbuffers, hrun, hagenda⟩
  obtain ⟨hle, -, -⟩ := hcall.1 hrun
  obtain hnone | hleft := Nat.eq_or_lt_of_le hle
  · exact ⟨s.finish, h.step_finish hnone, .inr ⟨State.finish_phase s, Nat.sub_eq_zero_of_le hnone.ge⟩⟩
  · exact ⟨s.afterGroup, h.step_group hleft, .inl ⟨(h.afterGroup hleft).run, h.afterGroup_bytesLeft_lt hleft⟩⟩

end Sys2Proof.Machine
end

section
/-!
PROOFS. What every step keeps: the invariant of a call, and the canonical form of both memories (10_state.md R29; log 4).
-/

namespace Sys2Proof.Machine

/-- Induction step for an invariant that taking a turn off the agenda keeps: if every move of the host and every operation
keeps it, every step does, as a waiting encoder leaves the state (R20, R215). -/
theorem step_keeps {P : State → Prop} (turn : ∀ {s : State}, P s → P s.turnTaken)
    (host : ∀ {m : HostMove} {s t : State}, P s → hostMove m s = .next t → P t)
    (operation : ∀ {i : Instr} {s t : State}, P s → exec i s = .next t → P t) {s t : State} (hs : P s)
    (h : step s = .next t) : P t := by
  obtain ⟨m, -, hhost⟩ | ⟨-, henc⟩ := step_cases h
  · exact host (turn hs) hhost
  · obtain ⟨-, rfl⟩ | ⟨-, -, hexec⟩ := encoderStep_cases henc
    · exact turn hs
    · exact operation (turn hs) hexec

/-! ### The invariant of a call -/

/-- A group of 1 to 4 bytes, full or the last one, with one character more than its bytes: it starts between groups, and
`N_out` grows by its characters. -/
theorem encodeGroup_keeps_callInv {r : Nat} {chars : Word32 → List Byte} {s t : State} (hcall : s.CallInv)
    (hrun : s.phase = .run) (hpos : 1 ≤ r) (hle : r ≤ 4) (hleft : s.ic + r ≤ s.len)
    (hlast : r = 4 ∨ s.ic + r = s.len) (hchars : ∀ v, (chars v).length = r + 1)
    (h : encodeGroup r chars s = .next t) : t.CallInv := by
  obtain ⟨-, hbetween, hoc⟩ := hcall.1 hrun
  have hstart : s.ic % 4 = 0 := hbetween.resolve_right (by omega)
  have hnotDone : s.phase ≠ .done := by simp [hrun]
  have hcount : nOut (s.ic + r) = s.oc + (r + 1) := hoc ▸ nOut_add_group hstart hpos hle
  obtain ⟨bs, -, -, -, rfl⟩ := encodeGroup_eq_next.1 h
  refine ⟨fun _ => ⟨hleft, ?_, ?_⟩, fun hdone => absurd hdone hnotDone⟩
  · change (s.ic + r) % 4 = 0 ∨ s.ic + r = s.len
    omega
  · rw [hcount, hchars]

/-- Every operation keeps the invariant: a full group and a tail are both groups, and the finish latches
`OC = N_out(LEN)`. -/
theorem exec_keeps_callInv {i : Instr} {s t : State} (hcall : s.CallInv) (h : exec i s = .next t) : t.CallInv := by
  obtain ⟨hrun, ⟨-, hleft, hgroup⟩ | ⟨r, hpos, hle, hleft, hgroup⟩ | ⟨-, hnone, rfl⟩⟩ := exec_cases h
  · exact encodeGroup_keeps_callInv hcall hrun (by decide) (by decide) hleft (.inl rfl)
      (fullGroupChars_length _) hgroup
  · exact encodeGroup_keeps_callInv hcall hrun hpos (by omega) hleft.le (.inr hleft)
      (fun v => tailGroupChars_length _ v hle) hgroup
  · obtain ⟨-, -, hoc⟩ := hcall.1 hrun
    have hcount : s.oc = nOut s.len := hnone ▸ hoc
    exact ⟨fun hstays => by simp at hstays, fun _ => ⟨hnone, hcount, hcount⟩⟩

/-- Every move of the host keeps the invariant: RESET leads to IDLE, START to cursors 0, and no other move changes the
phase or a register. -/
theorem hostMove_keeps_callInv {m : HostMove} {s t : State} (hcall : s.CallInv) (h : hostMove m s = .next t) :
    t.CallInv := by
  obtain ⟨hphase, hlen, hic, hoc, hcnt⟩ | ⟨-, rfl⟩ | ⟨l, -, -, rfl⟩ := hostMove_registers h
  · simpa only [State.CallInv, hphase, hlen, hic, hoc, hcnt] using hcall
  · exact ⟨fun hrun => by simp at hrun, fun hdone => by simp at hdone⟩
  · have hcount : 0 = nOut 0 := by decide
    exact ⟨fun _ => ⟨Nat.zero_le _, .inl rfl, hcount⟩, fun hdone => by simp at hdone⟩

/-- Settles O48: the moves of the host and the operations keep the invariant, and it does not read the agenda. -/
theorem callInvariantKept : Obligations.CallInvariantKept := fun _ _ =>
  step_keeps (P := State.CallInv) (fun hcall => hcall) hostMove_keeps_callInv exec_keeps_callInv

/-! ### The canonical form of the memories -/

/-- A group writes `OUT` cell by cell and leaves `IN`. -/
theorem encodeGroup_keeps_memoryInv {n : Nat} {chars : Word32 → List Byte} {s t : State} (hmem : s.MemoryInv)
    (h : encodeGroup n chars s = .next t) : t.MemoryInv := by
  obtain ⟨bs, -, -, -, rfl⟩ := encodeGroup_eq_next.1 h
  exact ⟨hmem.1, wf_writeAll _ _ _ hmem.2⟩

theorem exec_keeps_memoryInv {i : Instr} {s t : State} (hmem : s.MemoryInv) (h : exec i s = .next t) :
    t.MemoryInv := by
  obtain ⟨-, ⟨-, -, hgroup⟩ | ⟨r, -, -, -, hgroup⟩ | ⟨-, -, rfl⟩⟩ := exec_cases h
  · exact encodeGroup_keeps_memoryInv hmem hgroup
  · exact encodeGroup_keeps_memoryInv hmem hgroup
  · exact hmem

/-- RESET fills cells of `OUT`, START puts in place two buffers from index 0 on, and a write of the host is one cell. -/
theorem hostMove_keeps_memoryInv {m : HostMove} {s t : State} (hmem : s.MemoryInv) (h : hostMove m s = .next t) :
    t.MemoryInv := by
  obtain ⟨hin, hout⟩ := hmem
  obtain rfl | ⟨-, rfl⟩ | ⟨l, -, hstart⟩ | ⟨i, b, -, -, -, rfl⟩ | ⟨j, c, -, -, -, rfl⟩ := hostMove_cases h
  · exact ⟨hin, hout⟩
  · exact ⟨hin, wf_fillFree _ _ _ hout⟩
  · obtain ⟨-, -, -, -, -, -, rfl⟩ := startWith_eq_next.1 hstart
    exact ⟨Memory.wf_ofBytes _, Memory.wf_ofBytes _⟩
  · exact ⟨Memory.wf_write _ _ _ hin, hout⟩
  · exact ⟨hin, Memory.wf_write _ _ _ hout⟩

/-- Settles O50: the moves of the host and the operations keep the canonical form, and it does not read the agenda. -/
theorem memoryFormKept : Obligations.MemoryFormKept := fun _ _ =>
  step_keeps (P := State.MemoryInv) (fun hmem => hmem) hostMove_keeps_memoryInv exec_keeps_memoryInv

/-! ### The invariants at reset -/

/-- Settles O47: the claims about a running or finished call are empty in IDLE, and no memory lists a cell. -/
theorem invariantsAtReset : Obligations.InvariantsAtReset := by
  have hrun : State.reset.phase ≠ .run := by decide
  have hdone : State.reset.phase ≠ .done := by decide
  exact ⟨⟨fun h => absurd h hrun, fun h => absurd h hdone⟩, fun h => absurd h hrun, fun _ _ h => absurd h hrun,
    State.reset_memoryWf, fun hactive => absurd rfl hactive⟩

end Sys2Proof.Machine
end

section
/-!
PROOFS. The two fields of the selector in a running call, and the selector as a byte (30_encoding.md R80, R81; log 26).
-/

namespace Sys2Proof.Machine

/-- Settles O5: between groups, or at the end of the input, four bytes are left exactly when a full group is; and between
groups the bytes left and `LEN` agree modulo 4. -/
theorem selectorFollowsGroups : Obligations.SelectorFollowsGroups := by
  intro s hcall hrun
  obtain ⟨hle, hbetween, -⟩ := hcall.1 hrun
  refine ⟨?_, fun _ hstart => ?_⟩
  · rw [State.sel, selectorOf_getLsbD_two, decide_eq_true_iff, State.bytesLeft, State.groupsDone, State.fullGroups]
    omega
  · rw [State.sel, selectorOf_extractLsb_toNat, State.bytesLeft, State.remainder]
    omega

end Sys2Proof.Machine

namespace Sys2Proof

/-- A byte with a bit set above the three of `SEL` gives no operation. -/
theorem decodeBytes_of_high {b : Byte} (rest : List Byte) (h : 8 ≤ b.toNat) :
    decodeBytes (b :: rest) = .error .notSelector :=
  if_neg (Nat.not_lt.2 h)

/-- Eight bits are laid out in one byte. -/
theorem layOut_eight (w : Nat) : layOut 8 w = [BitVec.ofNat 8 w] := by
  have hbyte : BitVec.ofNat 8 (w % 256) = BitVec.ofNat 8 w := BitVec.eq_of_toNat_eq (by simp)
  simpa [layOut] using hbyte

theorem decodeTableWord_of_high {w : Nat} (hlow : 8 ≤ w) (hbyte : w < 256) : decodeTableWord 8 w = none := by
  have hvalue : (BitVec.ofNat 8 w).toNat = w := Nat.mod_eq_of_lt hbyte
  rw [decodeTableWord, layOut_eight, decodeBytes_of_high [] (hvalue.symm ▸ hlow)]

/-- Settles O2: the five rows are evaluated; a larger byte is refused by its high bit. -/
theorem tableWordsDecode : Obligations.TableWordsDecode := by
  refine ⟨by decide, by decide, by decide, by decide, by decide, fun w => decodeTableWord_of_high, ?_⟩
  exact fun b rest => decodeBytes_of_high rest

end Sys2Proof
end

section
/-!
PROOFS. The word of any group: its lanes, its padding and its bounds (41_word_parser.md R121 to R125).
-/

namespace Sys2Proof.Machine

/-! ### The lanes -/

/-- Zero bytes behind a group fill its lanes as absent bytes do (R123). -/
theorem lane_append_zeros (bs : List Byte) (n k : Nat) : lane (bs ++ List.replicate n 0) k = lane bs k := by
  by_cases hk : k < bs.length
  · simp [lane, List.getElem?_append_left hk]
  · rw [Nat.not_lt] at hk
    simp only [lane, List.getD_eq_getElem?_getD, List.getElem?_append_right hk, List.getElem?_eq_none hk,
      List.getElem?_replicate]
    split_ifs <;> rfl

theorem parseWord_append_zeros (bs : List Byte) (n : Nat) : parseWord (bs ++ List.replicate n 0) = parseWord bs := by
  simp only [parseWord, lane_append_zeros]

/-- Settles O12: the sum by weights is the word as a number, and padding changes no lane. -/
theorem wordByOneFormula : Obligations.WordByOneFormula := fun bs hpos hle =>
  ⟨parseWord_toNat hpos hle, (parseWord_append_zeros bs _).symm⟩

/-- The four lanes of an assembled word are its bytes (R125 (b)). -/
theorem assemble_lanes (b0 b1 b2 b3 : Byte) :
    (assemble b0 b1 b2 b3).extractLsb 31 24 = b0 ∧ (assemble b0 b1 b2 b3).extractLsb 23 16 = b1 ∧
    (assemble b0 b1 b2 b3).extractLsb 15 8 = b2 ∧ (assemble b0 b1 b2 b3).extractLsb 7 0 = b3 := by
  have h0 := b0.isLt
  have h1 := b1.isLt
  have h2 := b2.isLt
  have h3 := b3.isLt
  refine ⟨?_, ?_, ?_, ?_⟩
  all_goals
    apply BitVec.eq_of_toNat_eq
    rw [BitVec.extractLsb_toNat, assemble_toNat, Nat.shiftRight_eq_div_pow]
    omega

/-- Every word is assembled from its four lanes. -/
theorem assemble_of_lanes (v : Word32) :
    assemble (v.extractLsb 31 24) (v.extractLsb 23 16) (v.extractLsb 15 8) (v.extractLsb 7 0) = v := by
  have hv := v.isLt
  apply BitVec.eq_of_toNat_eq
  simp only [assemble_toNat, BitVec.extractLsb_toNat, Nat.shiftRight_eq_div_pow]
  omega

/-! ### The word of a tail -/

/-- The lanes that a tail lacks are zero, and its word grows with its bytes (R125 (c), (d)). -/
theorem parseWord_tail_bounds {bs : List Byte} (hpos : 1 ≤ bs.length) (hle : bs.length ≤ 3) :
    (parseWord bs).toNat % 2 ^ (8 * (4 - bs.length)) = 0 ∧
      (parseWord bs).toNat ≤ (parseWord (List.replicate bs.length 0xFF)).toNat := by
  match bs, hpos, hle with
  | [b0], _, _ =>
    have h0 := b0.isLt
    have hmax : (parseWord (List.replicate 1 0xFF)).toNat = 0xFF000000 := by decide
    simp only [List.length_cons, List.length_nil, Nat.zero_add, hmax, parseWord_one_toNat]
    omega
  | [b0, b1], _, _ =>
    have h0 := b0.isLt
    have h1 := b1.isLt
    have hmax : (parseWord (List.replicate 2 0xFF)).toNat = 0xFFFF0000 := by decide
    simp only [List.length_cons, List.length_nil, Nat.zero_add, Nat.reduceAdd, hmax, parseWord_two_toNat]
    omega
  | [b0, b1, b2], _, _ =>
    have h0 := b0.isLt
    have h1 := b1.isLt
    have h2 := b2.isLt
    have hmax : (parseWord (List.replicate 3 0xFF)).toNat = 0xFFFFFF00 := by decide
    simp only [List.length_cons, List.length_nil, Nat.zero_add, Nat.reduceAdd, hmax, parseWord_three_toNat]
    omega

/-- Settles O13: a full group is assembled from its bytes, so the lanes give them back and every word has four; the
bounds of a tail word; and the three largest ones, evaluated. -/
theorem wordLanesGiveBytesBack : Obligations.WordLanesGiveBytesBack :=
  ⟨assemble_lanes, fun v => ⟨_, _, _, _, assemble_of_lanes v⟩, fun _ => parseWord_tail_bounds, by decide, by decide,
    by decide⟩

/-- Settles O11: the word of a tail of each size. -/
theorem tailWordIsLeftJustified : Obligations.TailWordIsLeftJustified := fun b0 b1 b2 =>
  ⟨parseWord_one_toNat b0, parseWord_two_toNat b0 b1, parseWord_three_toNat b0 b1 b2⟩

/-- Groups of equal size, at most 4 bytes, with the same word are the same group. -/
theorem parseWord_injective {x y : List Byte} (hlen : x.length = y.length) (hle : x.length ≤ 4)
    (h : parseWord x = parseWord y) : x = y := by
  obtain ⟨hx0, hx1, hx2, hx3⟩ := assemble_lanes (lane x 0) (lane x 1) (lane x 2) (lane x 3)
  obtain ⟨hy0, hy1, hy2, hy3⟩ := assemble_lanes (lane y 0) (lane y 1) (lane y 2) (lane y 3)
  simp only [parseWord] at h
  rw [h] at hx0 hx1 hx2 hx3
  have hlane : ∀ k, k < 4 → lane x k = lane y k
    | 0, _ => hx0.symm.trans hy0
    | 1, _ => hx1.symm.trans hy1
    | 2, _ => hx2.symm.trans hy2
    | 3, _ => hx3.symm.trans hy3
  refine List.ext_getElem hlen fun k hkx hky => ?_
  simpa [lane, hkx, hky] using hlane k (by omega)

end Sys2Proof.Machine
end

section
/-!
PROOFS. The digits of a word: their ranges, and the base-85 numeral that they are (42_quintet_extractor.md R137 to
R139).
-/

namespace Sys2Proof.Machine

/-! ### Ranges -/

/-- Settles O15: the first digit is the quotient by `K4`, and `0xFF2280B2 = 82 * K4`. -/
theorem firstDigitAtMost82 : Obligations.FirstDigitAtMost82 := by
  intro v
  have hv := v.isLt
  rw [digit0_val]
  omega

/-- With first digit 82 the rest of a 32-bit word is small (R138). -/
theorem rem1_le_of_digit0 {v : Word32} (h : (digit0 v).val = 82) : rem1 v ≤ 14516045 := by
  have hv := v.isLt
  rw [digit0_val] at h
  rw [rem1_eq]
  omega

/-- Settles O16: a remainder is below its divisor, a digit below 85, and the tighter bounds follow from that on the first
remainder. -/
theorem remaindersAndDigitsInRange : Obligations.RemaindersAndDigitsInRange := by
  intro v
  have hrem1 : rem1 v < 52200625 := Nat.mod_lt _ (by decide)
  have hrem2 : rem2 v < 614125 := Nat.mod_lt _ (by decide)
  have hrem3 : rem3 v < 7225 := Nat.mod_lt _ (by decide)
  refine ⟨by omega, by omega, by omega, by omega, by omega, by omega, Nat.le_of_lt_succ (digit1 v).isLt,
    Nat.le_of_lt_succ (digit2 v).isLt, Nat.le_of_lt_succ (digit3 v).isLt, Nat.le_of_lt_succ (digit4 v).isLt, ?_⟩
  intro hfirst
  have htight := rem1_le_of_digit0 hfirst
  refine ⟨htight, ?_⟩
  rw [digit1_val]
  omega

/-! ### The numeral -/

/-- The division chain loses nothing: the digits by their weights sum to the word. -/
theorem toNat_eq_digits (v : Word32) :
    v.toNat = (digit0 v).val * 52200625 + (digit1 v).val * 614125 + (digit2 v).val * 7225 + (digit3 v).val * 85 +
      (digit4 v).val := by
  rw [digit0_val, digit1_val, digit2_val, digit3_val, digit4_val, rem3_eq, rem2_eq, rem1_eq]
  omega

/-- A base-85 numeral of five digits, the first of them unbounded, is told by its value. -/
theorem base85_numeral_unique {d0 d1 d2 d3 d4 e0 e1 e2 e3 e4 : Nat}
    (hd1 : d1 ≤ 84) (hd2 : d2 ≤ 84) (hd3 : d3 ≤ 84) (hd4 : d4 ≤ 84)
    (he1 : e1 ≤ 84) (he2 : e2 ≤ 84) (he3 : e3 ≤ 84) (he4 : e4 ≤ 84)
    (h : d0 * 52200625 + d1 * 614125 + d2 * 7225 + d3 * 85 + d4 =
      e0 * 52200625 + e1 * 614125 + e2 * 7225 + e3 * 85 + e4) :
    e0 = d0 ∧ e1 = d1 ∧ e2 = d2 ∧ e3 = d3 ∧ e4 = d4 := by
  have h0 : e0 = d0 := by omega
  have h1 : e1 = d1 := by omega
  have h2 : e2 = d2 := by omega
  omega

/-- Settles O17: the digits sum to the word, so they are its only numeral and tell it from every other word; each digit
by its weight is the positional one. -/
theorem quintetIsBase85Numeral : Obligations.QuintetIsBase85Numeral := by
  constructor
  · intro v
    refine ⟨toNat_eq_digits v, ?_, ?_, ?_, ?_, ?_, ?_⟩
    · intro e0 e1 e2 e3 e4 he1 he2 he3 he4 hsum
      rw [toNat_eq_digits v] at hsum
      exact base85_numeral_unique (Nat.le_of_lt_succ (digit1 v).isLt) (Nat.le_of_lt_succ (digit2 v).isLt)
        (Nat.le_of_lt_succ (digit3 v).isLt) (Nat.le_of_lt_succ (digit4 v).isLt) he1 he2 he3 he4 hsum
    · exact digit0_val v
    · exact congrArg Fin.val (digit1_eq_positional v)
    · exact congrArg Fin.val (digit2_eq_positional v)
    · exact congrArg Fin.val (digit3_eq_positional v)
    · simpa [positionalDigit] using congrArg Fin.val (digit4_eq_positional v)
  · intro v w h0 h1 h2 h3 h4
    apply BitVec.eq_of_toNat_eq
    rw [toNat_eq_digits v, toNat_eq_digits w, h0, h1, h2, h3, h4]

end Sys2Proof.Machine
end

section
/-!
PROOFS. Table A by formula, and the two images of Table B against each other (43_dual_lut_lookup.md R153, R157 to R159).
-/

namespace Sys2Proof.Machine

/-- Settles O18: the 85 entries of the table against the formula, entry by entry. -/
theorem tableAByFormula : Obligations.TableAByFormula := by
  unfold Obligations.TableAByFormula
  decide

/-- No character of Table A is the space (R87). -/
theorem lutA_ne_space (d : Digit) : lutA d ≠ 0x20 := (BitVec.ne_of_lt (lutA_printable d).1).symm

theorem lutA_between (d : Digit) : 0x20 ≤ lutA d ∧ lutA d ≤ 0x7E :=
  ⟨BitVec.le_of_lt (lutA_printable d).1, (lutA_printable d).2⟩

theorem lutBFull_between (t : TableB) (d : Digit) : 0x20 ≤ lutBFull t d ∧ lutBFull t d ≤ 0x7E := by
  unfold lutBFull
  split_ifs
  · exact t.cFull_printable
  · exact lutA_between d

theorem lutBTail_between (t : TableB) (d : Digit) : 0x20 ≤ lutBTail t d ∧ lutBTail t d ≤ 0x7E := by
  unfold lutBTail
  split_ifs
  · exact t.cTail_printable
  · exact lutA_between d

/-- The images differ: on a common slot by `B_DISTINCT`, else on the slot that holds the space (R158). -/
theorem exists_lutB_ne (t : TableB) : ∃ d, lutBFull t d ≠ lutBTail t d := by
  by_cases hslot : t.sFull = t.sTail
  · refine ⟨t.sFull, fun heq => t.distinct ⟨hslot, ?_⟩⟩
    rwa [lutBFull_sFull, hslot, lutBTail_sTail] at heq
  · obtain hspace | hspace := t.space
    · refine ⟨t.sFull, ?_⟩
      rw [lutBFull_sFull, lutBTail_of_ne hslot, hspace]
      exact (lutA_ne_space _).symm
    · refine ⟨t.sTail, ?_⟩
      rw [lutBFull_of_ne (Ne.symm hslot), lutBTail_sTail, hspace]
      exact lutA_ne_space _

/-- Off both slots the images are Table A, hence equal (R155). -/
theorem lutB_eq_of_ne {t : TableB} {d : Digit} (hfull : d ≠ t.sFull) (htail : d ≠ t.sTail) :
    lutBFull t d = lutBTail t d := by
  rw [lutBFull_of_ne hfull, lutBTail_of_ne htail]

/-- Settles O20: the images can differ on their two slots only. -/
theorem tableBZeroDistinctPrintable : Obligations.TableBZeroDistinctPrintable := by
  intro t
  refine ⟨lutBFull_zero t, lutBTail_zero t, exists_lutB_ne t, ⟨t.sFull, t.sTail, fun d hne => ?_⟩, fun d => ?_⟩
  · by_contra hoff
    obtain ⟨hfull, htail⟩ := not_or.1 hoff
    exact hne (lutB_eq_of_ne hfull htail)
  · exact ⟨(lutBFull_between t d).1, (lutBFull_between t d).2, lutBTail_between t d⟩

end Sys2Proof.Machine
end

section
/-!
PROOFS. A tail against the padded full group and against the other tails of its size (45_tail_group_handler.md R185,
R187).
-/

namespace Sys2Proof.Machine

/-- The first four digits of the division chain, by position. -/
theorem digits_getElem? (v : Word32) {p : Nat} (h : p ≤ 3) :
    [digit0 v, digit1 v, digit2 v, digit3 v][p]? = some (positionalDigit v.toNat p) := by
  match p, h with
  | 0, _ => exact congrArg some (digit0_eq_positional v)
  | 1, _ => exact congrArg some (digit1_eq_positional v)
  | 2, _ => exact congrArg some (digit2_eq_positional v)
  | 3, _ => exact congrArg some (digit3_eq_positional v)

theorem tailGroupChars_getElem? (t : TableB) {r p : Nat} (v : Word32) (hr : r ≤ 3) (hp : p ≤ r) :
    (tailGroupChars t r v)[p]? = some (positionChar t false v.toNat p) := by
  rw [tailGroupChars_eq_map t v hr, List.getElem?_map, List.getElem?_range (by omega), Option.map_some]

theorem fullGroupChars_getElem? (t : TableB) {p : Nat} (v : Word32) (hp : p ≤ 4) :
    (fullGroupChars t v)[p]? = some (positionChar t true v.toNat p) := by
  rw [fullGroupChars_eq_map, List.getElem?_map, List.getElem?_range (by omega), Option.map_some]

theorem positionChar_full (t : TableB) (v : Nat) {p : Nat} (h : p ≠ 0) :
    positionChar t true v p = lutBFull t (positionalDigit v p) := by
  simp [positionChar, h]

theorem positionChar_tail (t : TableB) (v : Nat) {p : Nat} (h : p ≠ 0) :
    positionChar t false v p = lutBTail t (positionalDigit v p) := by
  simp [positionChar, h]

/-- Where the digit is no divergent slot the kind of the group does not show in the character. -/
theorem positionChar_kind {t : TableB} {v p : Nat} (hfull : positionalDigit v p ≠ t.sFull)
    (htail : positionalDigit v p ≠ t.sTail) : positionChar t false v p = positionChar t true v p := by
  by_cases hp : p = 0
  · subst hp
    rfl
  · rw [positionChar_tail t v hp, positionChar_full t v hp, lutB_eq_of_ne hfull htail]

/-- Settles O21: padding keeps the word, so both groups have the same digits; position 1 is Table A's in both, and a later
one differs on a slot only. -/
theorem tailAgreesWithPaddedGroup : Obligations.TailAgreesWithPaddedGroup := by
  intro t bs p _ hle hp
  dsimp only
  rw [parseWord_append_zeros]
  refine ⟨rfl, _, _, tailGroupChars_getElem? t _ hle hp, fullGroupChars_getElem? t _ (by omega), ?_, ?_⟩
  · rintro rfl
    rfl
  · intro e hdigit hfull htail
    rw [digits_getElem? _ (by omega), Option.some_inj] at hdigit
    subst hdigit
    exact positionChar_kind hfull htail

/-- The first `r + 1` digits of a 32-bit number are its quotient by the weight of the last of them. -/
theorem div_eq_of_positionalDigits_eq {v w r : Nat} (hv : v < 2 ^ 32) (hw : w < 2 ^ 32) (hr : r ≤ 4)
    (h : ∀ p, p ≤ r → positionalDigit v p = positionalDigit w p) : v / 85 ^ (4 - r) = w / 85 ^ (4 - r) := by
  induction r with
  | zero =>
    have hdigit : v / 85 ^ 4 % 85 = w / 85 ^ 4 % 85 := congrArg Fin.val (h 0 (Nat.le_refl 0))
    omega
  | succ r ih =>
    have hbefore := ih (by omega) fun p hp => h p (by omega)
    have hdigit : v / 85 ^ (4 - (r + 1)) % 85 = w / 85 ^ (4 - (r + 1)) % 85 :=
      congrArg Fin.val (h (r + 1) (Nat.le_refl _))
    have hweight : 85 ^ (4 - r) = 85 ^ (4 - (r + 1)) * 85 := by
      rw [← Nat.pow_succ]
      congr 1
      omega
    rw [hweight, ← Nat.div_div_eq_div_mul, ← Nat.div_div_eq_div_mul] at hbefore
    rw [← Nat.div_add_mod (v / 85 ^ (4 - (r + 1))) 85, hbefore, hdigit, Nat.div_add_mod]

/-- Words of tails of `r` bytes are multiples of `256^(4-r)`, which is more than the weight `85^(4-r)` of the last digit
that is emitted: equal quotients make equal words (R185). -/
theorem tail_words_eq_of_div_eq {r v w : Nat} (hpos : 1 ≤ r) (hle : r ≤ 3) (hv : v % 2 ^ (8 * (4 - r)) = 0)
    (hw : w % 2 ^ (8 * (4 - r)) = 0) (h : v / 85 ^ (4 - r) = w / 85 ^ (4 - r)) : v = w := by
  match r, hpos, hle with
  | 1, _, _ => omega
  | 2, _, _ => omega
  | 3, _, _ => omega

/-- Settles O22: tails with the same emitted digits have the same quotient, hence the same word, hence the same bytes. -/
theorem tailDigitsTellTailsApart : Obligations.TailDigitsTellTailsApart := by
  intro r hpos hle
  refine ⟨fun t v => tailGroupChars_length t v hle, fun x y hx hy hne => ?_⟩
  by_contra hsame
  have hdigits : ∀ p, p ≤ r →
      positionalDigit (parseWord x).toNat p = positionalDigit (parseWord y).toNat p := by
    intro p hp
    by_contra hdiffer
    refine hsame ⟨p, hp, ?_⟩
    rw [digits_getElem? _ (hp.trans hle), digits_getElem? _ (hp.trans hle)]
    exact fun heq => hdiffer (Option.some_inj.1 heq)
  have hquotient := div_eq_of_positionalDigits_eq (parseWord x).isLt (parseWord y).isLt (by omega) hdigits
  obtain ⟨hxlow, -⟩ := parseWord_tail_bounds (bs := x) (by omega) (by omega)
  obtain ⟨hylow, -⟩ := parseWord_tail_bounds (bs := y) (by omega) (by omega)
  rw [hx] at hxlow
  rw [hy] at hylow
  have hword := tail_words_eq_of_div_eq hpos hle hxlow hylow hquotient
  exact hne (parseWord_injective (hx.trans hy.symm) (by omega) (BitVec.eq_of_toNat_eq hword))

end Sys2Proof.Machine
end

section
/-!
PROOFS. What a full group changes, and where the group operations stop (44_full_group.md R172; 60_exceptions.md R203;
log 4).
-/

namespace Sys2Proof.Machine

/-! ### What ENC.FULL changes -/

/-- The two low bits of the selector are those of the number of bytes left. -/
theorem selectorOf_extractLsb_congr {m n : Nat} (h : m % 4 = n % 4) :
    (selectorOf m).extractLsb 1 0 = (selectorOf n).extractLsb 1 0 :=
  BitVec.eq_of_toNat_eq (by rw [selectorOf_extractLsb_toNat, selectorOf_extractLsb_toNat, h])

/-- Settles O33: a completed ENC.FULL leaves a group of four bytes and five characters behind, and its guard says that
four bytes were left. -/
theorem fullGroupChanges : Obligations.FullGroupChanges := by
  intro s t h
  obtain ⟨⟨-, hleft⟩, -⟩ := execEncFull_eq_next.1 h
  obtain ⟨bs, cs, hbs, hcs, rfl⟩ := exec_group_eq_withGroup (n := 4) (m := 5) (by simp [groupSizes]) h
  have hic : (s.withGroup bs cs).ic = s.ic + 4 := congrArg (s.ic + ·) hbs
  have hoc : (s.withGroup bs cs).oc = s.oc + 5 := congrArg (s.oc + ·) hcs
  have hbytes : (s.withGroup bs cs).bytesLeft + 4 = s.bytesLeft := by
    change s.len - (s.withGroup bs cs).ic + 4 = s.len - s.ic
    omega
  refine ⟨fun a hchanged => ?_, ?_, hbytes, selectorOf_extractLsb_congr (by omega), ?_, fun hplace => by omega⟩
  · by_contra houtside
    rw [State.withGroup_outMem, read_writeAll, hcs, if_neg houtside] at hchanged
    exact hchanged rfl
  · rw [← hic, ← hoc]
    rfl
  · rw [State.sel, selectorOf_getLsbD_two, decide_eq_true_iff]
    omega

/-! ### Where a group operation stops -/

/-- Settles O35: the operation is a group of bytes that are there to be read, and the write at `CAP` faults. -/
theorem outputOverflowFaults : Obligations.OutputOverflowFaults := by
  intro s i n m hmem hrun hguard hbytes hcap hfirst
  obtain ⟨hn, rfl, hleft, hexec⟩ := exec_group_of_guard hmem hrun hguard
  obtain ⟨hlen, hread⟩ := State.read_pending hleft hbytes
  have hchars := groupChars_length Config.tableB (parseWord (s.pending.take n)) hn
  rw [hexec]
  exact encodeGroup_overflow hlen hread (List.ne_nil_of_length_pos (by omega)) (by omega) hfirst

/-- A read below `LEN` of a cell without a value faults (log 4). -/
theorem memRead_unknown {s : State} {i : Nat} (hlen : i < s.len) (hcell : s.inMem.read i = none) :
    memRead s i = .fault .unwrittenInput := by
  simp [memRead, hlen, hcell]

/-- Reads below `LEN` fault at the first cell without a value. -/
theorem readBytes_unknown {n i : Nat} {s : State} (hlen : i + n ≤ s.len)
    (hcell : ∃ k, k < n ∧ s.inMem.read (i + k) = none) : readBytes n i s = .fault .unwrittenInput := by
  induction n generalizing i s with
  | zero =>
    obtain ⟨k, hk, -⟩ := hcell
    exact absurd hk (Nat.not_lt_zero k)
  | succ n ih =>
    have hi : i < s.len := by omega
    rw [readBytes]
    cases hfirst : s.inMem.read i with
    | none => rw [memRead_unknown hi hfirst, andThen_of_fault]
    | some b =>
      obtain ⟨k, hk, hnone⟩ := hcell
      have hlater : ∃ k', k' < n ∧ s.inMem.read (i + 1 + k') = none := by
        cases k with
        | zero => simp [hfirst] at hnone
        | succ k => exact ⟨k, by omega, by rw [← hnone, Nat.add_assoc, Nat.add_comm 1 k]⟩
      have hrest : readBytes n (i + 1) (s.note (.read i b)) = .fault .unwrittenInput :=
        ih (by rw [State.note_len]; omega) hlater
      rw [memRead_eq_next.2 ⟨hi, hfirst, rfl⟩, andThen_of_next, hrest, andThen_of_fault]

/-- A group with a byte that is not known faults before it writes. -/
theorem encodeGroup_unknown {n : Nat} {chars : Word32 → List Byte} {s : State} (hlen : s.ic + n ≤ s.len)
    (hcell : ∃ k, k < n ∧ s.inMem.read (s.ic + k) = none) : encodeGroup n chars s = .fault .unwrittenInput := by
  rw [encodeGroup, readBytes_unknown hlen hcell, andThen_of_fault]

/-- Settles O36: the operation is a group within the input, one of whose reads faults. -/
theorem unknownInputByteFaults : Obligations.UnknownInputByteFaults := by
  intro s i n hmem hrun hguard hcell
  have hsize : (i, n, n + 1) ∈ groupSizes := by
    simpa [groupSizes, and_comm] using hmem
  obtain ⟨-, -, hleft, hexec⟩ := exec_group_of_guard hsize hrun hguard
  rw [hexec]
  exact encodeGroup_unknown hleft hcell

end Sys2Proof.Machine
end

section
/-!
PROOFS. The cells that a whole call touches (20_memory.md R53, R55).
-/

namespace Sys2Proof.Machine

/-- The index of `IN` that is read, if the cell is one of `IN`. -/
def Touch.readIndex : Touch → Option Nat
  | .read i => some i
  | .write _ => none

/-- The index of `OUT` that is written, if the cell is one of `OUT`. -/
def Touch.writeIndex : Touch → Option Nat
  | .write j => some j
  | .read _ => none

theorem groupTouches_readIndex (i n j m : Nat) :
    (groupTouches i n j m).filterMap Touch.readIndex = (List.range n).map (i + ·) := by
  simp [groupTouches, List.filterMap_map, Function.comp_def, Touch.readIndex]

theorem groupTouches_writeIndex (i n j m : Nat) :
    (groupTouches i n j m).filterMap Touch.writeIndex = (List.range m).map (j + ·) := by
  simp [groupTouches, List.filterMap_map, Function.comp_def, Touch.writeIndex]

/-- Induction over the groups of an input: a last group of 1 to 4 bytes comes after full groups. -/
theorem group_induction {P : Nat → Prop} (zero : P 0)
    (group : ∀ n r, n % 4 = 0 → 1 ≤ r → r ≤ 4 → P n → P (n + r)) (n : Nat) : P n := by
  induction n using Nat.strong_induction_on with
  | h n ih =>
    obtain rfl | hpos := Nat.eq_zero_or_pos n
    · exact zero
    · have hsplit : n = (n - 1) / 4 * 4 + ((n - 1) % 4 + 1) := by omega
      rw [hsplit]
      exact group _ _ (by omega) (by omega) (by omega) (ih _ (by omega))

/-- A call of `n` bytes reads the indices below `n`, in order (R53). -/
theorem callTouches_readIndex (n : Nat) : (callTouches n).filterMap Touch.readIndex = List.range n := by
  induction n using group_induction with
  | zero => rfl
  | group n r hn hpos hle ih =>
    rw [callTouches_add_group hn hpos hle, List.filterMap_append, ih, groupTouches_readIndex, ← List.range_add]

/-- A call of `n` bytes writes the indices below `N_out(n)`, in order (R55). -/
theorem callTouches_writeIndex (n : Nat) : (callTouches n).filterMap Touch.writeIndex = List.range (nOut n) := by
  induction n using group_induction with
  | zero => rfl
  | group n r hn hpos hle ih =>
    rw [callTouches_add_group hn hpos hle, List.filterMap_append, ih, groupTouches_writeIndex,
      nOut_add_group hn hpos hle, ← List.range_add]

/-- The cells of a finished call are those of all its bytes. -/
theorem State.accesses_of_done {s : State} (hcall : s.CallInv) (hacc : s.AccessInv) (hdone : s.phase = .done) :
    s.accesses.map Access.touch = callTouches s.len := by
  obtain ⟨hic, -, -⟩ := hcall.2 hdone
  rw [← hic]
  exact hacc (by simp [hdone])

/-- Settles O52: the indices of a call by its groups, and those of a finished call by the cells of its history. -/
theorem callTouchesEachCellOnce : Obligations.CallTouchesEachCellOnce := by
  refine ⟨fun n => ⟨?_, ?_⟩, fun s hcall hacc hdone => ?_⟩
  · exact callTouches_readIndex n
  · exact callTouches_writeIndex n
  · have htouches := State.accesses_of_done hcall hacc hdone
    rw [← callTouches_readIndex, ← callTouches_writeIndex, ← htouches, List.filterMap_map, List.filterMap_map]
    constructor
    all_goals
      congr 1
      funext a
      cases a <;> rfl

end Sys2Proof.Machine
end

section
/-!
PROOFS. The counts of a call, and what a START is refused for (00_scope.md R12; 40_sequencer_and_call.md R102, R111;
60_exceptions.md R203 to R205; logs 13, 14, 20).
-/

namespace Sys2Proof.Machine

/-! ### The counts -/

/-- Only a call without a tail writes as many characters as it needs room for. -/
theorem nOut_eq_capReq_iff (n : Nat) : nOut n = capReq n ↔ n % 4 = 0 := by
  rw [nOut_eq, capReq]
  split_ifs <;> omega

/-- Settles O23: both functions are their formulas, and the room that is left over is that of the tail. -/
theorem countWithinRequiredCapacity : Obligations.CountWithinRequiredCapacity := fun n =>
  ⟨nOut_eq n, rfl, nOut_le_capReq n, nOut_eq_capReq_iff n⟩

/-- Settles O39: an unbounded width takes every count, and a width of `w` bits compares with `2^w`. -/
theorem countFitsItsWidth : Obligations.CountFitsItsWidth := fun _ =>
  ⟨rfl, fun _ _ => decide_eq_true_iff⟩

/-! ### The premises that fail -/

/-- Spans with an address in common are not disjoint (R63). -/
theorem disjointSpans_of_common {a m b n i j : Nat} (hi : i < m) (hj : j < n) (h : a + i = b + j) :
    disjointSpans a m b n = false := by
  have hm : m ≠ 0 := by omega
  have hn : n ≠ 0 := by omega
  have hbelow : ¬ a + m ≤ b := by omega
  have habove : ¬ b + n ≤ a := by omega
  simp [disjointSpans, hm, hn, hbelow, habove]

/-- Buffers with a base or a cell past the last address are not addressable (log 20). -/
theorem launchAddressable_of_past {aw : Nat} {l : Launch}
    (h : 2 ^ aw ≤ l.inBase ∨ 2 ^ aw ≤ l.outBase ∨ (∃ i, i < l.len ∧ 2 ^ aw ≤ l.inBase + i) ∨
      (∃ j, j < l.cap ∧ 2 ^ aw ≤ l.outBase + j)) : launchAddressable aw l = false := by
  rw [← Bool.not_eq_true]
  intro haddr
  obtain ⟨hin, hout⟩ := Bool.and_eq_true_iff.1 haddr
  obtain ⟨hinBase, hinCells⟩ := spanFits_iff.1 hin
  obtain ⟨houtBase, houtCells⟩ := spanFits_iff.1 hout
  obtain hpast | hpast | ⟨i, hi, hpast⟩ | ⟨j, hj, hpast⟩ := h
  · exact Nat.not_lt.2 hpast hinBase
  · exact Nat.not_lt.2 hpast houtBase
  · exact Nat.not_lt.2 hpast (hinCells i hi)
  · exact Nat.not_lt.2 hpast (houtCells j hj)

/-! ### The checks of START, in their order (log 14) -/

section
variable {w : Width} {aw : Nat} {l : Launch} {s : State}

theorem startWith_capacityPremise (hrun : s.phase ≠ .run) (hcap : launchCapOk l = false) :
    startWith w aw l s = .refused .capacityPremise := by
  simp [startWith, hrun, hcap]

theorem startWith_countWidth (hrun : s.phase ≠ .run) (hcap : launchCapOk l = true) (hfits : launchFits w l = false) :
    startWith w aw l s = .refused .countWidth := by
  simp [startWith, hrun, hcap, hfits]

theorem startWith_aliasPremise (hrun : s.phase ≠ .run) (hcap : launchCapOk l = true) (hfits : launchFits w l = true)
    (hdisjoint : launchDisjoint l = false) : startWith w aw l s = .refused .aliasPremise := by
  simp [startWith, hrun, hcap, hfits, hdisjoint]

theorem startWith_addressWidth (hrun : s.phase ≠ .run) (hcap : launchCapOk l = true) (hfits : launchFits w l = true)
    (hdisjoint : launchDisjoint l = true) (haddr : launchAddressable aw l = false) :
    startWith w aw l s = .refused .addressWidth := by
  simp [startWith, hrun, hcap, hfits, hdisjoint, haddr]

theorem startWith_inputPremise (hrun : s.phase ≠ .run) (hcap : launchCapOk l = true) (hfits : launchFits w l = true)
    (hdisjoint : launchDisjoint l = true) (haddr : launchAddressable aw l = true)
    (hinput : launchHasInput l = false) : startWith w aw l s = .refused .inputPremise := by
  simp [startWith, hrun, hcap, hfits, hdisjoint, haddr, hinput]

end

/-- Settles O38: each clause says that its check is the first to fail. -/
theorem startRefusals : Obligations.StartRefusals := by
  intro w aw s l
  refine ⟨fun hrun => if_pos hrun, fun hrun hcap => ?_, fun hrun hcap hfits => ?_, fun hrun hcap hfits hcommon => ?_,
    fun hrun hcap hfits hdisjoint hpast => ?_, fun hrun hcap hfits hdisjoint hin hout hinput => ?_⟩
  · exact startWith_capacityPremise hrun (decide_eq_false (Nat.not_le.2 hcap))
  · exact startWith_countWidth hrun (decide_eq_true hcap) hfits
  · obtain ⟨i, j, hi, hj, hsame⟩ := hcommon
    exact startWith_aliasPremise hrun (decide_eq_true hcap) hfits (disjointSpans_of_common hi hj hsame)
  · exact startWith_addressWidth hrun (decide_eq_true hcap) hfits hdisjoint (launchAddressable_of_past hpast)
  · exact startWith_inputPremise hrun (decide_eq_true hcap) hfits hdisjoint (Bool.and_eq_true_iff.2 ⟨hin, hout⟩)
      (decide_eq_false (Nat.not_le.2 hinput))

end Sys2Proof.Machine
end

section
/-!
PROOFS. The text of an input: its length, its locality, its distance from Table A's string, and its dependence on the
input only (40_sequencer_and_call.md R106, R113; 43_dual_lut_lookup.md R164).
-/

namespace Sys2Proof.Machine

/-- Settles O56: the count grows with each group by its characters. -/
theorem textLengthIsCount : Obligations.TextLengthIsCount := encodeText_length

/-! ### Locality -/

/-- Settles O58: the text of full groups is that of the first group and of the rest, whatever comes behind them. -/
theorem textOfConcatenation : Obligations.TextOfConcatenation := by
  intro t x y hfull
  induction x using encodeText.induct with
  | case1 => rfl
  | case2 b0 => simp at hfull
  | case3 b0 b1 => simp at hfull
  | case4 b0 b1 b2 => simp at hfull
  | case5 b0 b1 b2 b3 rest ih =>
    have hrest : rest.length % 4 = 0 := by
      simp only [List.length_cons] at hfull
      omega
    simp only [List.cons_append, encodeText, ih hrest, List.append_assoc]

/-! ### The string that Table A alone would give -/

/-- What position `p + 1` of a group holds where Table A alone would give `c`: at position 1 the same, later the stored
code of the image used if `c` is the character of its divergent slot (R164). -/
def divergedChar (t : TableB) (full : Bool) (p : Nat) (c : Byte) : Byte :=
  if p = 0 then c
  else if full then (if c = lutA t.sFull then t.cFull else c)
  else (if c = lutA t.sTail then t.cTail else c)

theorem divergedChar_zero (t : TableB) (full : Bool) (c : Byte) : divergedChar t full 0 c = c := rfl

theorem divergedChar_full (t : TableB) {p : Nat} (h : p ≠ 0) (c : Byte) :
    divergedChar t true p c = if c = lutA t.sFull then t.cFull else c := by
  simp [divergedChar, h]

theorem divergedChar_tail (t : TableB) {p : Nat} (h : p ≠ 0) (c : Byte) :
    divergedChar t false p c = if c = lutA t.sTail then t.cTail else c := by
  simp [divergedChar, h]

theorem lutA_eq_iff {d e : Digit} : lutA d = lutA e ↔ d = e := ⟨lutA_injective, congrArg lutA⟩

/-- Table A has no character twice, so its character tells whether the digit is a divergent slot. -/
theorem positionChar_eq_diverged (t : TableB) (full : Bool) (v p : Nat) :
    positionChar t full v p = divergedChar t full p (lutA (positionalDigit v p)) := by
  by_cases hp : p = 0
  · subst hp
    rfl
  · cases full with
    | true => simp only [positionChar_full t v hp, divergedChar_full t hp, lutBFull, lutA_eq_iff]
    | false => simp only [positionChar_tail t v hp, divergedChar_tail t hp, lutBTail, lutA_eq_iff]

/-- The characters of a group against those of Table A, by position. -/
theorem groupText_eq_mapIdx (t : TableB) (bs : List Byte) :
    groupText t bs = (undivergedGroup bs).mapIdx (divergedChar t (bs.length == 4)) := by
  refine List.ext_getElem (by simp [groupText, undivergedGroup]) fun p _ _ => ?_
  simp [groupText, undivergedGroup, positionChar_eq_diverged]

theorem undivergedGroup_length (bs : List Byte) : (undivergedGroup bs).length = bs.length + 1 := by
  simp [undivergedGroup]

/-- What index `j` of the text of `n` bytes holds where Table A alone would give `c`: five characters to a full group,
then those of the tail. -/
def divergedAt (t : TableB) (n j : Nat) (c : Byte) : Byte :=
  divergedChar t (decide (j < 5 * (n / 4))) (j % 5) c

/-- A first full group takes the first five indices. -/
theorem divergedAt_first (t : TableB) (n : Nat) {j : Nat} (h : j < 5) :
    divergedAt t (n + 4) j = divergedChar t true j := by
  have hfull : j < 5 * ((n + 4) / 4) := by omega
  funext c
  rw [divergedAt, decide_eq_true hfull, Nat.mod_eq_of_lt h]

/-- Behind a first full group come the bytes behind its four. -/
theorem divergedAt_add_five (t : TableB) (n j : Nat) : divergedAt t (n + 4) (j + 5) = divergedAt t n j := by
  have hbound : j + 5 < 5 * ((n + 4) / 4) ↔ j < 5 * (n / 4) := by omega
  funext c
  simp only [divergedAt, hbound, Nat.add_mod_right]

/-- Fewer than four bytes are a tail. -/
theorem divergedAt_tail (t : TableB) {n j : Nat} (hn : n ≤ 3) (hj : j < 5) :
    divergedAt t n j = divergedChar t false j := by
  have htail : ¬ j < 5 * (n / 4) := by omega
  funext c
  rw [divergedAt, decide_eq_false htail, Nat.mod_eq_of_lt hj]

theorem groupText_tail_eq_mapIdx (t : TableB) {bs : List Byte} (h : bs.length ≤ 3) :
    groupText t bs = (undivergedGroup bs).mapIdx (divergedAt t bs.length) := by
  have hkind : (bs.length == 4) = false := beq_false_of_ne (by omega)
  rw [groupText_eq_mapIdx, hkind]
  refine List.ext_getElem (by simp) fun j hj _ => ?_
  rw [List.length_mapIdx, undivergedGroup_length] at hj
  simp only [List.getElem_mapIdx, divergedAt_tail t h (show j < 5 by omega)]

theorem groupText_full_eq_mapIdx (t : TableB) {bs : List Byte} (n : Nat) (h : bs.length = 4) :
    groupText t bs = (undivergedGroup bs).mapIdx (divergedAt t (n + 4)) := by
  rw [groupText_eq_mapIdx, h]
  refine List.ext_getElem (by simp) fun j hj _ => ?_
  rw [List.length_mapIdx, undivergedGroup_length] at hj
  simp only [List.getElem_mapIdx, divergedAt_first t n (show j < 5 by omega)]
  rfl

/-- The text against the string of Table A, by index. -/
theorem encodeText_eq_mapIdx (t : TableB) (bs : List Byte) :
    encodeText t bs = (undivergedText bs).mapIdx (divergedAt t bs.length) := by
  induction bs using encodeText.induct with
  | case1 => rfl
  | case2 b0 => exact groupText_tail_eq_mapIdx t (bs := [b0]) (by simp)
  | case3 b0 b1 => exact groupText_tail_eq_mapIdx t (bs := [b0, b1]) (by simp)
  | case4 b0 b1 b2 => exact groupText_tail_eq_mapIdx t (bs := [b0, b1, b2]) (by simp)
  | case5 b0 b1 b2 b3 rest ih =>
    have hfirst := groupText_full_eq_mapIdx t (bs := [b0, b1, b2, b3]) rest.length rfl
    have hrest : (undivergedText rest).mapIdx (fun j => divergedAt t (rest.length + 4) (j + 5)) =
        encodeText t rest := by
      simp only [divergedAt_add_five, ih]
    rw [encodeText, undivergedText, List.mapIdx_append, undivergedGroup_length]
    exact congrArg₂ (· ++ ·) hfirst hrest.symm

/-- Settles O57: the text is the string of Table A with the characters of the divergent slots replaced; the three clauses
are the three cases of the replacement. -/
theorem textAgainstUndivergedText : Obligations.TextAgainstUndivergedText := by
  intro t bs
  refine ⟨by rw [encodeText_eq_mapIdx, List.length_mapIdx], fun j c hc => ?_⟩
  have hchar : (encodeText t bs)[j]? = some (divergedAt t bs.length j c) := by
    rw [encodeText_eq_mapIdx, List.getElem?_mapIdx, hc, Option.map_some]
  rw [hchar, divergedAt]
  refine ⟨fun hfirst => ?_, fun hlater hfull => ?_, fun hlater htail => ?_⟩
  · rw [hfirst, divergedChar_zero]
  · rw [decide_eq_true hfull, divergedChar_full t hlater]
  · rw [decide_eq_false (Nat.not_lt.2 htail), divergedChar_tail t hlater]

/-! ### Dependence on the input -/

/-- Equal lengths and equal cells below them make the same input. -/
theorem State.inputText_congr {s s' : State} (hlen : s.len = s'.len)
    (hread : ∀ i, i < s.len → s.inMem.read i = s'.inMem.read i) : s.inputText = s'.inputText := by
  rw [State.inputText, State.inputText, ← hlen]
  exact List.map_congr_left fun i hi => by rw [hread i (List.mem_range.1 hi)]

/-- Settles O59: both calls end with the text of the one input. -/
theorem resultDependsOnInputOnly : Obligations.ResultDependsOnInputOnly := by
  intro s s' hbuffers hbuffers' hrun hrun' hic hoc hic' hoc' hagenda hagenda' hlen hread
  obtain ⟨t, hruns, hdone, hcnt, -, htext⟩ := callWritesItsText s hbuffers hrun hic hoc hagenda
  obtain ⟨t', hruns', hdone', hcnt', -, htext'⟩ := callWritesItsText s' hbuffers' hrun' hic' hoc' hagenda'
  refine ⟨t, t', hruns, hruns', hdone, hdone', by rw [hcnt, hcnt', hlen], fun j hj => ?_⟩
  rw [hcnt] at hj
  rw [htext j, htext' j, if_pos hj, if_pos (hlen ▸ hj), State.inputText_congr hlen hread]

end Sys2Proof.Machine
end
